-- ==== Sys2Proof/Word.lean ====
section
/-! DEFINITION. The words of gpkkk-PDP: bytes, 16-bit quantities, operation words, beats, responses
(00_scope.md R12, 30_encoding.md R90). Every quantity is unsigned. -/

namespace Sys2Proof

/-- A byte: bits 7 (most significant) down to 0 (00_scope.md R12). -/
abbrev Byte := BitVec 8

/-- A 16-bit quantity (`enc_len`, `res_len`, `steps`, `energy`). -/
abbrev Half := BitVec 16

/-- Format `OP`: an operation word `{opcode, imm8}` (30_encoding.md R91). -/
abbrev OpWord := BitVec 16

/-- Format `BEAT` as one number `{last, data}` (30_encoding.md R93, R101). -/
abbrev BeatWord := BitVec 9

/-- One transfer on a byte stream: a byte and the flag `last` (30_encoding.md R93). -/
structure Beat where
  data : Byte
  last : Bool
deriving DecidableEq, Repr

/-- The one response every operation gives (30_encoding.md R92). -/
structure Rsp where
  err  : Bool
  data : Byte
deriving DecidableEq, Repr

/-- A beat as the 9-bit number `{last, data}` (30_encoding.md R93). -/
abbrev Beat.word (b : Beat) : BeatWord := BitVec.ofBool b.last ++ b.data

end Sys2Proof
end

