-- ==== Sys2Proof/Config.lean ====
section
/-! DEFINITION. What is fixed for the machine: the constants of the source (00_scope.md R9,
30_encoding.md R102), the parameters of the spec (R10), the open parameters (R11) and the one free
value (10_state.md R49). Stated in this one place, as 93_implementation_defined.md U9 asks. -/

namespace Sys2Proof.Config

/-- `SYNC0`, the first byte of every frame (00_scope.md R9). -/
abbrev sync0 : Byte := 0x51#8
/-- `SYNC1`, the second byte of every frame (00_scope.md R9). -/
abbrev sync1 : Byte := 0x78#8
/-- `END_MARKER`, the last byte of every frame the block builds (00_scope.md R9). -/
abbrev endMarker : Byte := 0xFF#8
/-- `CRC_POLY` (00_scope.md R9). -/
abbrev crcPoly : Byte := 0x07#8
/-- `CRC_INIT` (00_scope.md R9). -/
abbrev crcInit : Byte := 0x00#8
/-- `HDR_LEN`: bytes before the payload (00_scope.md R9). -/
abbrev hdrLen : Nat := 6
/-- `MIN_FRAME`: header, checksum, end marker (00_scope.md R9). -/
abbrev minFrame : Nat := 8
/-- `MAX_PAYLOAD` (00_scope.md R9). -/
abbrev maxPayload : Nat := 65535
/-- `TYPE_DEFAULT` (00_scope.md R9). -/
abbrev typeDefault : Byte := 0x00#8
/-- `CMD_STATUS`: the command whose inbound payload is parsed as status (00_scope.md R9). -/
abbrev cmdStatus : Byte := 0xA3#8

/-- `DEC_BUF_BYTES`: the capacity of `buf` (00_scope.md R10). -/
abbrev decBufBytes : Nat := 65535
/-- Where `w_cnt` saturates (00_scope.md R10, `DEC_CNT_WIDTH` = 17). -/
abbrev decCntMax : Nat := 131071
/-- `STATUS_MIN_LEN` (00_scope.md R10). -/
abbrev statusMinLen : Nat := 3

/-! The command codes of the wire commands (30_encoding.md R102). -/

abbrev cmdRetract : Byte := 0xA0#8
abbrev cmdFeed : Byte := 0xA1#8
abbrev cmdPrintRow : Byte := 0xA2#8
abbrev cmdSetDpi : Byte := 0xA4#8
abbrev cmdGetInfo : Byte := 0xA8#8
abbrev cmdSetEnergy : Byte := 0xAF#8
abbrev cmdSetSpeed : Byte := 0xBD#8
abbrev cmdApplyEnergy : Byte := 0xBE#8
/-- The single payload byte of `applyEnergy` (30_encoding.md R102). -/
abbrev applyEnergyByte : Byte := 0x01#8
/-- The steps of the feed that ends `PRINTBITMAP` (45_wire_commands.md R251). -/
abbrev bitmapFeed : Half := 32#16

/-- `SETTLE_MS`, the host's delay between frames, about 10 ms: open (00_scope.md R11, log 9).
No rule of the block reads it. -/
opaque settleMs : Nat

/-- `MAX_WRITE`, the transport's largest write: open (00_scope.md R11, log 9). No rule of the
block reads it. -/
opaque maxWrite : Nat

/-- FREE VALUE: what a byte of `buf` that nothing has written reads as, at a reset count and an index
(10_state.md R49 "unspecified", 93_implementation_defined.md U12 "any value"; log 3). -/
opaque bufUnspecified : Nat → Nat → Byte

end Sys2Proof.Config
end

