-- ==== Sys2Proof/Machine/Codec.lean ====
section
/-! DEFINITION. The pure functions of the four units, over whole byte sequences: `crc8_step`, `crc8`,
`rev8`, `encode`, `decode` and the status interpretation (00_scope.md R15: normative wherever the
source speaks), with the byte-order helpers they use (20_memory.md R65). -/

namespace Sys2Proof.Machine

/-- The low byte of a 16-bit quantity. -/
def lowByte (h : Half) : Byte := h.extractLsb' 0 8

/-- The high byte of a 16-bit quantity. -/
def highByte (h : Half) : Byte := h.extractLsb' 8 8

/-- Two bytes as a 16-bit quantity, the low byte first on the wire (20_memory.md R65). -/
def half (lo hi : Byte) : Half := hi ++ lo

/-- A 16-bit payload value: `[v mod 256, v div 256]` (30_encoding.md R95 d). -/
def le16 (v : Half) : List Byte := [lowByte v, highByte v]

/-- One iteration of the loop of `crc8_step`: shift left, and XOR `0x07` when bit 7 was set before
the shift (40_crc.md R130). Bit 7 has the value 128 (00_scope.md R12), so it is set when `a` is at
least `0x80`; `crcRound_eq_topBit` in Laws/Codec.lean says the same with the bit. -/
def crcRound (a : Byte) : Byte :=
  if 0x80#8 ≤ a then (a <<< 1) ^^^ Config.crcPoly else a <<< 1

/-- `n` iterations of the loop. -/
def crcRounds : Nat → Byte → Byte
  | 0, a => a
  | n + 1, a => crcRounds n (crcRound a)

/-- `crc8_step(c, b)`: the accumulator `c` updated by the byte `b` (40_crc.md R130). -/
def crc8Step (c b : Byte) : Byte := crcRounds 8 (c ^^^ b)

/-- The accumulator `c` updated by every byte of a sequence, in order. -/
def crc8From (c : Byte) (s : List Byte) : Byte := s.foldl crc8Step c

/-- `crc8(s)` (40_crc.md R131). -/
def crc8 (s : List Byte) : Byte := crc8From Config.crcInit s

/-- `rev8(b)`: bit `i` of the result is bit `7 - i` of `b` (41_brev.md R150). -/
def rev8 (b : Byte) : Byte :=
  BitVec.ofBool (b.getLsbD 0) ++ BitVec.ofBool (b.getLsbD 1) ++ BitVec.ofBool (b.getLsbD 2) ++
    BitVec.ofBool (b.getLsbD 3) ++ BitVec.ofBool (b.getLsbD 4) ++ BitVec.ofBool (b.getLsbD 5) ++
    BitVec.ofBool (b.getLsbD 6) ++ BitVec.ofBool (b.getLsbD 7)

/-- The six header bytes of a frame whose length field is `len` (30_encoding.md R94). -/
def headerBytes (cmd typ : Byte) (len : Half) : List Byte :=
  [Config.sync0, Config.sync1, cmd, typ, lowByte len, highByte len]

/-- `encode(command, payload, typeByte)` (42_enc.md R160); its domain is payloads of at most 65535
bytes (R172). DESIGN CHOICE: beyond it the length field is the length mod 65536 (log 16). -/
def encodeFrame (cmd typ : Byte) (payload : List Byte) : List Byte :=
  headerBytes cmd typ (BitVec.ofNat 16 payload.length) ++ payload ++
    [if payload = [] then 0x00#8 else crc8 payload, Config.endMarker]

/-- The bytes of one message as beats: `last` on the final byte and on no other
(20_memory.md R63, R64). -/
def beatsOf : List Byte → List Beat
  | [] => []
  | [b] => [⟨b, true⟩]
  | b :: c :: rest => ⟨b, false⟩ :: beatsOf (c :: rest)

/-- What `decode` extracts from a well-formed frame (43_dec.md R190, 10_state.md R25). -/
structure ParsedFrame where
  command : Byte
  typeByte : Byte
  payloadLength : Half
  payload : List Byte
  checksumReceived : Byte
  checksumExpected : Byte
  crcValid : Bool
  endMarker : Byte
deriving DecidableEq, Repr

/-- The outcome of `decode`: `ParsedFrame | DecodeError` (43_dec.md R190). -/
inductive Decoded where
  | ok (f : ParsedFrame)
  | tooShort
  | badSync
  | truncated
deriving DecidableEq, Repr

/-- Byte `i` of a message; every use is guarded by a length test (43_dec.md R208). -/
def byteAt (raw : List Byte) (i : Nat) : Byte := raw.getD i 0x00#8

/-- `payloadLength`, little-endian from bytes 4 and 5 (43_dec.md R190 step 3). -/
def declaredLength (raw : List Byte) : Nat := (byteAt raw 4).toNat + 256 * (byteAt raw 5).toNat

/-- `decode(raw)`: the checks in the source's order (43_dec.md R190, R191). -/
def decodeMessage (raw : List Byte) : Decoded :=
  if raw.length < Config.minFrame then .tooShort
  else if byteAt raw 0 ≠ Config.sync0 ∨ byteAt raw 1 ≠ Config.sync1 then .badSync
  else if raw.length < Config.minFrame + declaredLength raw then .truncated
  else
    let len := declaredLength raw
    let payload := (raw.drop Config.hdrLen).take len
    .ok
      { command := byteAt raw 2
        typeByte := byteAt raw 3
        payloadLength := BitVec.ofNat 16 len
        payload := payload
        checksumReceived := byteAt raw (Config.hdrLen + len)
        checksumExpected := crc8 payload
        crcValid := decide (crc8 payload = byteAt raw (Config.hdrLen + len))
        endMarker := byteAt raw (Config.hdrLen + len + 1) }

/-- ParsedStatus: `paperPresent` and the three raw bytes (43_dec.md R198). -/
structure ParsedStatus where
  paperPresent : Bool
  rawByte0 : Byte
  rawByte1 : Byte
  rawByte2 : Byte
deriving DecidableEq, Repr

/-- The status interpretation of a parsed frame: only for command `0xA3` with at least three payload
bytes (43_dec.md R198). -/
def statusOf (f : ParsedFrame) : Option ParsedStatus :=
  if f.command = Config.cmdStatus ∧ Config.statusMinLen ≤ f.payload.length then
    some
      { paperPresent := (byteAt f.payload 0).getLsbD 0
        rawByte0 := byteAt f.payload 0
        rawByte1 := byteAt f.payload 1
        rawByte2 := byteAt f.payload 2 }
  else none

end Sys2Proof.Machine
end

