-- ==== Sys2Proof/Syntax.lean ====
section
/-! DEFINITION. The instructions: one constructor for each row of spec/opcode_table.json, and the
forms in which one arrives at a port (30_encoding.md R90, R96, R101). -/

namespace Sys2Proof

/-- What a SENDRAW frame carries in bytes 2 and 3: the command code the caller supplies, and the type byte,
`0x00` unless given ("the type is the default `0x00`", 45_wire_commands.md R250). -/
structure RawCode where
  command : Byte
  typeByte : Byte := 0x00#8
deriving DecidableEq, Repr

/-- The 26 rows of spec/opcode_table.json. -/
inductive Instr where
  /-- `RD n`, `0x01nn` (44_rd.md R230). -/
  | rd (n : Byte)
  /-- `CRC.CLR`, `0x10xx` (40_crc.md R133). -/
  | crcClr
  /-- `CRC.UPD b`, `0x11bb` (40_crc.md R134). -/
  | crcUpd (b : Byte)
  /-- `BREV b`, `0x20bb` (41_brev.md R151). -/
  | brev (b : Byte)
  /-- `ENC.CMD c`, `0x30cc` (42_enc.md R162). -/
  | encCmd (c : Byte)
  /-- `ENC.TYPE t`, `0x31tt` (42_enc.md R164). -/
  | encType (t : Byte)
  /-- `ENC.LENL b`, `0x32bb` (42_enc.md R165). -/
  | encLenl (b : Byte)
  /-- `ENC.LENH b`, `0x33bb` (42_enc.md R167). -/
  | encLenh (b : Byte)
  /-- `ENC.START`, `0x34xx` (42_enc.md R166). -/
  | encStart
  /-- `ENC.PUT b`, `0x35bb` (42_enc.md R168). -/
  | encPut (b : Byte)
  /-- `ENC.PUTR b`, `0x36bb` (42_enc.md R169). -/
  | encPutr (b : Byte)
  /-- `DEC.PAY`, `0x40xx` (43_dec.md R200). -/
  | decPay
  /-- `DEC.ACK`, `0x41xx` (43_dec.md R202). -/
  | decAck
  /-- `CRC.RD`, the fully fixed word `0x0100` (40_crc.md R135, 30_encoding.md R101). -/
  | crcRd
  /-- `RXBEAT`: an RX beat with `last = 0` (43_dec.md R196). -/
  | rxBeat (b : Byte)
  /-- `RXBEAT.LAST`: an RX beat with `last = 1` (43_dec.md R196, R197). -/
  | rxBeatLast (b : Byte)
  /-- `RETRACT steps` (45_wire_commands.md R242). -/
  | retract (steps : Half)
  /-- `FEED steps` (45_wire_commands.md R241). -/
  | feed (steps : Half)
  /-- `PRINTROW [r0, ...]`, the row as the rasteriser gives it (45_wire_commands.md R243). -/
  | printRow (row : List Byte)
  /-- `GETSTATUS` (45_wire_commands.md R245). -/
  | getStatus
  /-- `SETDPI dpi` (45_wire_commands.md R247). -/
  | setDpi (dpi : Byte)
  /-- `GETINFO` (45_wire_commands.md R246). -/
  | getInfo
  /-- `SETENERGY energy` (45_wire_commands.md R249). -/
  | setEnergy (energy : Half)
  /-- `SETSPEED speed` (45_wire_commands.md R248). -/
  | setSpeed (speed : Byte)
  /-- `APPLYENERGY` (45_wire_commands.md R244). -/
  | applyEnergy
  /-- `SENDRAW cmd, [p0, ...]` (45_wire_commands.md R250), whose type byte is `0x00`. The row's mask
  `0xFFFF0000` leaves frame byte 3 free as well (30_encoding.md R101), so the operand holds a type byte
  too (log 6). -/
  | sendRaw (cmd : RawCode) (payload : List Byte)
deriving DecidableEq, Repr

/-- What the host presents: an operation word (20_memory.md R62), or a wire command, which the host
expands into operation words and which is written as its frame (45_wire_commands.md R240,
30_encoding.md R101). -/
inductive HostWord where
  | op (w : OpWord)
  | frame (bytes : List Byte)
deriving DecidableEq, Repr

/-- An encoded instruction at the port it arrives at: the host's, or the RX stream
(30_encoding.md R96 "it arrives on the RX stream, in format BEAT"). -/
inductive Encoded where
  | host (w : HostWord)
  | rx (w : BeatWord)
deriving DecidableEq, Repr

/-- The three formats of the rows of spec/opcode_table.json (30_encoding.md R101). -/
inductive Format where
  | op
  | beat
  | frame
deriving DecidableEq, Repr

/-- The format of an instruction's row (30_encoding.md R101). -/
def Instr.format : Instr → Format
  | .rd _ | .crcClr | .crcUpd _ | .brev _ | .encCmd _ | .encType _ | .encLenl _ | .encLenh _
  | .encStart | .encPut _ | .encPutr _ | .decPay | .decAck | .crcRd => .op
  | .rxBeat _ | .rxBeatLast _ => .beat
  | .retract _ | .feed _ | .printRow _ | .getStatus | .setDpi _ | .getInfo | .setEnergy _
  | .setSpeed _ | .applyEnergy | .sendRaw _ _ => .frame

/-- The format an encoding is in. -/
def Encoded.format : Encoded → Format
  | .host (.op _) => .op
  | .host (.frame _) => .frame
  | .rx _ => .beat

end Sys2Proof
end

