-- ==== Sys2Proof/WellFormed.lean ====
section
/-! DEFINITION. Which instructions can be written: every operand of a fixed width fits by its type, so
the only check left is the length of a caller-supplied payload (45_wire_commands.md R243, R250;
42_enc.md R172: "A payload longer than 65535 bytes is not representable"). -/

namespace Sys2Proof

/-- The number of payload bytes is representable in 16 bits (42_enc.md R172). -/
def Instr.wf : Instr → Bool
  | .printRow row => decide (row.length ≤ Config.maxPayload)
  | .sendRaw _ payload => decide (payload.length ≤ Config.maxPayload)
  | .rd _ | .crcClr | .crcUpd _ | .brev _ | .encCmd _ | .encType _ | .encLenl _ | .encLenh _
  | .encStart | .encPut _ | .encPutr _ | .decPay | .decAck | .crcRd | .rxBeat _ | .rxBeatLast _
  | .retract _ | .feed _ | .getStatus | .setDpi _ | .getInfo | .setEnergy _ | .setSpeed _
  | .applyEnergy => true

/-- A well-formed instruction. -/
abbrev WellFormed (i : Instr) : Prop := i.wf = true

end Sys2Proof
end

