-- ==== Sys2Proof/Decode.lean ====
section
/-! DEFINITION. The decoder, total on any word, beat or byte string, rejecting by name, and after it
the encoder, from the same tables: the opcode map (30_encoding.md R96 to R98), the beat (R93), the
wire frame and its command codes (R94, R102). -/

namespace Sys2Proof

open Sys2Proof.Machine

/-- Why an encoding stands for no instruction. -/
inductive DecodeReject where
  /-- An `opcode` outside the map (30_encoding.md R98). The step takes OpError for it. -/
  | illegalOpcode
  /-- Fewer than 8 bytes: no frame (30_encoding.md R90). -/
  | frameTooShort
  /-- The first two bytes are not the sync bytes (30_encoding.md R94). -/
  | frameBadSync
  /-- Fewer than `8 + L` bytes (30_encoding.md R94). -/
  | frameTruncated
  /-- More than `8 + L` bytes: not one frame (30_encoding.md R94). -/
  | frameTrailingBytes
  /-- The checksum is not that of the payload (30_encoding.md R94). -/
  | frameChecksum
  /-- The last byte is not `0xFF` (30_encoding.md R94). -/
  | frameEndMarker
deriving DecidableEq, Repr

/-! ### Decoding -/

/-- `opcode`, bits [15:8] of an operation word (30_encoding.md R91). -/
def opcodeOf (w : OpWord) : Byte := w.extractLsb' 8 8

/-- `imm8`, bits [7:0] of an operation word (30_encoding.md R91). -/
def immOf (w : OpWord) : Byte := w.extractLsb' 0 8

/-- The opcode map (30_encoding.md R96); `imm8` is ignored where R97 says so, and the fully fixed word
`0x0100` is CRC.RD's row (R101; log 6). -/
def decodeOp (w : OpWord) : Except DecodeReject Instr :=
  match (opcodeOf w).toNat with
  | 0x01 => if immOf w = 0x00#8 then .ok .crcRd else .ok (.rd (immOf w))
  | 0x10 => .ok .crcClr
  | 0x11 => .ok (.crcUpd (immOf w))
  | 0x20 => .ok (.brev (immOf w))
  | 0x30 => .ok (.encCmd (immOf w))
  | 0x31 => .ok (.encType (immOf w))
  | 0x32 => .ok (.encLenl (immOf w))
  | 0x33 => .ok (.encLenh (immOf w))
  | 0x34 => .ok .encStart
  | 0x35 => .ok (.encPut (immOf w))
  | 0x36 => .ok (.encPutr (immOf w))
  | 0x40 => .ok .decPay
  | 0x41 => .ok .decAck
  | _ => .error .illegalOpcode

/-- A beat `{last, data}`: every one is an instruction (30_encoding.md R93, R101). -/
def decodeBeat (w : BeatWord) : Instr :=
  if w.getLsbD 8 then .rxBeatLast (w.extractLsb' 0 8) else .rxBeat (w.extractLsb' 0 8)

/-- The wire command of a command code, a type byte and a payload: the row they fit. The rows of the
defined commands fix the type byte `0x00` and, by their layout, the payload (30_encoding.md R101, R102);
every other frame is SENDRAW's, whose row fixes the sync bytes only (R101; log 6). -/
def commandOf (cmd typ : Byte) (payload : List Byte) : Instr :=
  if typ ≠ Config.typeDefault then .sendRaw ⟨cmd, typ⟩ payload
  else if cmd = Config.cmdPrintRow then .printRow (payload.map rev8)
  else
    match payload with
    | [] =>
      if cmd = Config.cmdStatus then .getStatus
      else if cmd = Config.cmdGetInfo then .getInfo
      else .sendRaw ⟨cmd, typ⟩ []
    | [x] =>
      if cmd = Config.cmdSetDpi then .setDpi x
      else if cmd = Config.cmdSetSpeed then .setSpeed x
      else if cmd = Config.cmdApplyEnergy ∧ x = Config.applyEnergyByte then .applyEnergy
      else .sendRaw ⟨cmd, typ⟩ [x]
    | [lo, hi] =>
      if cmd = Config.cmdRetract then .retract (half lo hi)
      else if cmd = Config.cmdFeed then .feed (half lo hi)
      else if cmd = Config.cmdSetEnergy then .setEnergy (half lo hi)
      else .sendRaw ⟨cmd, typ⟩ [lo, hi]
    | lo :: hi :: x :: rest => .sendRaw ⟨cmd, typ⟩ (lo :: hi :: x :: rest)

/-- The wire command whose frame the bytes are: exactly one complete frame, of any type byte
(30_encoding.md R94, R101). -/
def decodeFrame (bytes : List Byte) : Except DecodeReject Instr :=
  match decodeMessage bytes with
  | .tooShort => .error .frameTooShort
  | .badSync => .error .frameBadSync
  | .truncated => .error .frameTruncated
  | .ok f =>
    if Config.minFrame + f.payload.length < bytes.length then .error .frameTrailingBytes
    else if f.crcValid = false then .error .frameChecksum
    else if f.endMarker ≠ Config.endMarker then .error .frameEndMarker
    else .ok (commandOf f.command f.typeByte f.payload)

/-- What the host presents, decoded. -/
def decodeHost : HostWord → Except DecodeReject Instr
  | .op w => decodeOp w
  | .frame bytes => decodeFrame bytes

/-- The decoder. -/
def decode : Encoded → Except DecodeReject Instr
  | .host w => decodeHost w
  | .rx w => .ok (decodeBeat w)

/-! ### Encoding -/

/-- An operation word, `opcode * 256 + imm8` (30_encoding.md R91, R103). -/
def opWord (opcode imm : Byte) : OpWord := opcode ++ imm

/-- The operation word of an operation; the assembler emits `0x00` for an ignored operand
(30_encoding.md R96, R97). `none` for a beat and a wire command. -/
def opEncoding : Instr → Option OpWord
  | .rd n => some (opWord 0x01 n)
  | .crcClr => some (opWord 0x10 0x00)
  | .crcUpd b => some (opWord 0x11 b)
  | .brev b => some (opWord 0x20 b)
  | .encCmd c => some (opWord 0x30 c)
  | .encType t => some (opWord 0x31 t)
  | .encLenl b => some (opWord 0x32 b)
  | .encLenh b => some (opWord 0x33 b)
  | .encStart => some (opWord 0x34 0x00)
  | .encPut b => some (opWord 0x35 b)
  | .encPutr b => some (opWord 0x36 b)
  | .decPay => some (opWord 0x40 0x00)
  | .decAck => some (opWord 0x41 0x00)
  | .crcRd => some (opWord 0x01 0x00)
  | .rxBeat _ | .rxBeatLast _ | .retract _ | .feed _ | .printRow _ | .getStatus | .setDpi _
  | .getInfo | .setEnergy _ | .setSpeed _ | .applyEnergy | .sendRaw _ _ => none

/-- The command code, the type byte and the payload of a wire command (30_encoding.md R102,
45_wire_commands.md R241 to R250). `none` for an operation and a beat. -/
def wireParts : Instr → Option (Byte × Byte × List Byte)
  | .retract steps => some (Config.cmdRetract, Config.typeDefault, le16 steps)
  | .feed steps => some (Config.cmdFeed, Config.typeDefault, le16 steps)
  | .printRow row => some (Config.cmdPrintRow, Config.typeDefault, row.map rev8)
  | .getStatus => some (Config.cmdStatus, Config.typeDefault, [])
  | .setDpi dpi => some (Config.cmdSetDpi, Config.typeDefault, [dpi])
  | .getInfo => some (Config.cmdGetInfo, Config.typeDefault, [])
  | .setEnergy energy => some (Config.cmdSetEnergy, Config.typeDefault, le16 energy)
  | .setSpeed speed => some (Config.cmdSetSpeed, Config.typeDefault, [speed])
  | .applyEnergy => some (Config.cmdApplyEnergy, Config.typeDefault, [Config.applyEnergyByte])
  | .sendRaw cmd payload => some (cmd.command, cmd.typeByte, payload)
  | .rd _ | .crcClr | .crcUpd _ | .brev _ | .encCmd _ | .encType _ | .encLenl _ | .encLenh _
  | .encStart | .encPut _ | .encPutr _ | .decPay | .decAck | .crcRd | .rxBeat _ | .rxBeatLast _ =>
    none

/-- The encoder: an operation word, a beat, or a wire frame. -/
def encode (i : Instr) : Encoded :=
  match i with
  | .rxBeat b => .rx (Beat.word ⟨b, false⟩)
  | .rxBeatLast b => .rx (Beat.word ⟨b, true⟩)
  | i =>
    match opEncoding i, wireParts i with
    | some w, _ => .host (.op w)
    | none, some (cmd, typ, payload) => .host (.frame (encodeFrame cmd typ payload))
    | none, none => .host (.frame [])

/-- The instruction that an instruction's encoding is read as. Two rows share words with another:
`RD 0x00` is read as CRC.RD, and a SENDRAW whose frame is a defined command's ("identical to that
command's", 45_wire_commands.md R250) as that command. Every other instruction is read as itself. -/
def Instr.canonical (i : Instr) : Instr :=
  match i with
  | .rd n => if n = 0x00#8 then .crcRd else .rd n
  | .sendRaw cmd payload => commandOf cmd.command cmd.typeByte payload
  | i => i

/-! ### The words of spec/opcode_table.json, as numbers (log 6) -/

/-- The payload of a row's command with its operands zero (30_encoding.md R102); that of SENDRAW's row is
empty. -/
def zeroOperandPayload (cmd typ : Byte) : List Byte :=
  if typ ≠ Config.typeDefault then []
  else if cmd = Config.cmdRetract ∨ cmd = Config.cmdFeed ∨ cmd = Config.cmdSetEnergy then
    [0x00#8, 0x00#8]
  else if cmd = Config.cmdSetDpi ∨ cmd = Config.cmdSetSpeed then [0x00#8]
  else if cmd = Config.cmdApplyEnergy then [Config.applyEnergyByte]
  else []

/-- The frame whose bytes 0 to 3 are the 32-bit number of a FRAME row, byte 0 most significant
(30_encoding.md R101), with the row's operands zero and the length, checksum and end marker that
the frame format gives them. -/
def keyFrame (key : BitVec 32) : List Byte :=
  let cmd : Byte := key.extractLsb' 8 8
  let typ : Byte := key.extractLsb' 0 8
  let payload := zeroOperandPayload cmd typ
  [key.extractLsb' 24 8, key.extractLsb' 16 8, cmd, typ] ++
    le16 (BitVec.ofNat 16 payload.length) ++ payload ++ [crc8 payload, Config.endMarker]

/-- A table word laid out at its port, for the host's probes only: 9 bits a beat, 32 bits a frame, 16 bits
an operation word (30_encoding.md R101). DESIGN CHOICE: the probes count a row's bits in whole bytes, 16
for the 9-bit row RXBEAT, and a 16-bit number below `0x100` is no row of format OP, since opcode `0x00`
is illegal (R98), so it is read as that row (log 6). `decodeOp` does not read it so: presented as an
operation word it is illegal. -/
def tableWord (nbits w : Nat) : Option Encoded :=
  match nbits with
  | 9 => some (.rx (BitVec.ofNat 9 w))
  | 16 => if w < 256 then some (.rx (BitVec.ofNat 9 w)) else some (.host (.op (BitVec.ofNat 16 w)))
  | 32 => some (.host (.frame (keyFrame (BitVec.ofNat 32 w))))
  | _ => none

/-- The instruction the decoder reads from a word of spec/opcode_table.json. -/
def decodeTableWord (nbits w : Nat) : Option Instr :=
  match tableWord nbits w with
  | none => none
  | some e => (decode e).toOption

end Sys2Proof
end

