-- ==== Sys2Proof/Machine/State.lean ====
section
/-! DEFINITION. The state of the block: four disjoint groups, one per unit (10_state.md R20), the
payload buffer, and the model's own fields for the ports, whose words, responses and beats are
"inputs and outputs of a step" (R41). Reset values: R48. -/

namespace Sys2Proof.Machine

/-- The verdict on one message: 0 NONE, 1 OK, 2 TOO_SHORT, 3 BAD_SYNC, 4 TRUNCATED; "5, 6 and 7 never
occur" (10_state.md R25, R33; log 10). -/
inductive Verdict where
  | none
  | ok
  | tooShort
  | badSync
  | truncated
deriving DecidableEq, Repr

/-- ENC unit state (10_state.md R23). -/
structure EncState where
  /-- `enc_cmd`. -/
  cmd  : Byte
  /-- `enc_type`. -/
  typ  : Byte
  /-- `enc_len`. -/
  len  : Half
  /-- `enc_rem`: payload bytes still owed to the current frame. -/
  rem  : Half
  /-- `enc_crc`. -/
  crc  : Byte
  /-- `enc_busy`. -/
  busy : Bool
deriving DecidableEq, Repr

/-- DEC working state (10_state.md R24), `buf` apart. -/
structure DecWork where
  /-- `w_cnt`, 17 bits, saturating. -/
  cnt   : BitVec 17
  /-- `w_hdr[0..5]`. -/
  hdr   : Vector Byte 6
  /-- `w_crc`. -/
  crc   : Byte
  /-- `w_rxcrc`. -/
  rxcrc : Byte
  /-- `w_end`. -/
  endm  : Byte
deriving DecidableEq, Repr

/-- DEC result state (10_state.md R25). -/
structure DecResult where
  /-- `dec_pending`. -/
  pending  : Bool
  /-- `res_verdict`. -/
  verdict  : Verdict
  /-- `res_cmd`. -/
  cmd      : Byte
  /-- `res_type`. -/
  typ      : Byte
  /-- `res_len`. -/
  len      : Half
  /-- `res_crcrx`. -/
  crcrx    : Byte
  /-- `res_crcexp`. -/
  crcexp   : Byte
  /-- `res_end`. -/
  endm     : Byte
  /-- `res_crcvalid`. -/
  crcvalid : Bool
  /-- `res_stvalid`. -/
  stvalid  : Bool
  /-- `res_paper`. -/
  paper    : Bool
  /-- `res_st0`. -/
  st0      : Byte
  /-- `res_st1`. -/
  st1      : Byte
  /-- `res_st2`. -/
  st2      : Byte
  /-- `dec_rp`: payload bytes already popped. -/
  rp       : Half
deriving DecidableEq, Repr

/-- A sparse byte memory: (index, byte) pairs. An unlisted index holds no value (10_state.md R49,
93_implementation_defined.md U12). -/
abbrev Memory := List Host.Cell

/-- The canonical form: indices strictly rising and inside the 65535 bytes of `buf`
(10_state.md R38). -/
abbrev Memory.wf (m : Memory) : Prop :=
  m.Pairwise (fun a b => a.1 < b.1) ∧ ∀ c ∈ m, c.1 < Config.decBufBytes

/-- Which agent moves at a step (20_memory.md R71; the reset input, 70_reset_and_hazards.md R300). -/
inductive Turn where
  | host
  | transport
  | rst
deriving DecidableEq, Repr

/-- The state. -/
structure State where
  /-- `crc`, the CRC unit's accumulator (10_state.md R21). -/
  crc      : Byte
  /-- The ENC unit (10_state.md R23). -/
  enc      : EncState
  /-- The DEC unit's working state (10_state.md R24). -/
  work     : DecWork
  /-- The DEC unit's result state (10_state.md R25). -/
  res      : DecResult
  /-- `buf`, the payload buffer (10_state.md R24, R38). -/
  buf      : Memory
  /-- The model's own: how often the block was reset, where `buf`'s free value is taken (log 3). -/
  bufEpoch : Nat
  /-- The model's own: what the host will present, oldest first (log 1). -/
  hostIn   : List HostWord
  /-- The model's own: the beats the transport will present, oldest first (log 1). -/
  rxIn     : List BeatWord
  /-- The model's own: which agent moves at each coming step (log 1). -/
  sched    : List Turn
  /-- The model's own: the TX stream so far, oldest first (20_memory.md R63; log 2). -/
  txOut    : List Beat
  /-- The model's own: the responses so far, oldest first (20_memory.md R62; log 2). -/
  rspOut   : List Rsp
deriving DecidableEq, Repr

/-- ENC after reset: IDLE, all zero (10_state.md R48). -/
def EncState.reset : EncState :=
  { cmd := 0x00, typ := 0x00, len := 0x0000, rem := 0x0000, crc := 0x00, busy := false }

/-- The working state after reset and after every latch (10_state.md R48, 43_dec.md R197). -/
def DecWork.reset : DecWork :=
  { cnt := 0, hdr := Vector.replicate 6 0x00, crc := 0x00, rxcrc := 0x00, endm := 0x00 }

/-- The result state after reset and after DEC.ACK: every field 0 (10_state.md R48, 43_dec.md R202). -/
def DecResult.reset : DecResult :=
  { pending := false, verdict := .none, cmd := 0x00, typ := 0x00, len := 0x0000, crcrx := 0x00,
    crcexp := 0x00, endm := 0x00, crcvalid := false, stvalid := false, paper := false,
    st0 := 0x00, st1 := 0x00, st2 := 0x00, rp := 0x0000 }

/-- The machine right after reset (10_state.md R48, R49), with nothing presented yet. -/
def State.reset : State :=
  { crc := 0x00
    enc := EncState.reset
    work := DecWork.reset
    res := DecResult.reset
    buf := []
    bufEpoch := 0
    hostIn := []
    rxIn := []
    sched := []
    txOut := []
    rspOut := [] }

/-- Why the machine stops with a fault: never. The block has no trap, and no rule of the spec stops
it (60_exceptions.md R270, R277; log 11), so there is no constructor. -/
inductive Fault
deriving DecidableEq, Repr

/-- Why the model gives no meaning. -/
inductive Refusal where
  /-- An instruction without a meaning yet; raised by `exec`'s arms only. Safe. -/
  | notModelled (mnemonic : String)
  /-- A PRINTROW or SENDRAW with more than 65535 payload bytes, which cannot be written
  (42_enc.md R172, 92_eei_decisions.md D26); raised by their meanings. Safe (log 7). -/
  | payloadNotRepresentable
  /-- Host bytes that are no wire command's frame, so that the host has no expansion for them; raised
  by the step. Safe (log 6). -/
  | notAWireCommand (why : DecodeReject)
deriving DecidableEq, Repr

/-- The outcome of a meaning and of a step. -/
abbrev Result := Host.Outcome State Fault Refusal

end Sys2Proof.Machine
end

