-- ==== Sys2Proof/Machine/Ops.lean ====
section
/-! DEFINITION. The shared operations: responses and OpError (the block's one way to take an
"exception", 60_exceptions.md R271, R277) with its release DEC.ACK (R278), TX beats, the payload
buffer, the host's and the transport's queues, the reset. -/

namespace Sys2Proof.Machine

/-! ### Responses and errors -/

/-- `Respond(err, data)`: exactly one for each operation, in order (20_memory.md R62). -/
def respond (r : Rsp) (s : State) : State := { s with rspOut := s.rspOut ++ [r] }

/-- `Respond(0, data)` (30_encoding.md R92). -/
def respondOk (data : Byte) (s : State) : State := respond ⟨false, data⟩ s

/-- `raise OpError`: response `(1, 0x00)`, no state change, no TX beat, nothing recorded
(60_exceptions.md R271). -/
def opError (s : State) : State := respond ⟨true, 0x00⟩ s

/-- Release of the pending result, "the one release operation" (60_exceptions.md R278): the result
group to 0; `buf` is not erased (43_dec.md R202). -/
def releaseResult (s : State) : State := { s with res := DecResult.reset }

/-! ### The TX stream -/

/-- `TxEmit`, for several beats in order (00_scope.md R14, 42_enc.md R163). -/
def txEmit (beats : List Beat) (s : State) : State := { s with txOut := s.txOut ++ beats }

/-- Bytes as beats with `last = 0`. -/
def openBeats (bytes : List Byte) : List Beat := bytes.map (fun b => ⟨b, false⟩)

/-- The end of a frame: the checksum, then the end marker with `last = 1` (42_enc.md R166, R168). -/
def tailBeats (checksum : Byte) : List Beat := [⟨checksum, false⟩, ⟨Config.endMarker, true⟩]

/-! ### The payload buffer -/

/-- The byte a cell list holds at an index, if any. -/
def memGet (m : Memory) (i : Nat) : Option Byte :=
  match m with
  | [] => none
  | c :: rest => if c.1 = i then some c.2 else memGet rest i

/-- Write one byte, keeping the canonical form. -/
def memSet (m : Memory) (i : Nat) (b : Byte) : Memory :=
  match m with
  | [] => [(i, b)]
  | c :: rest =>
    if i < c.1 then (i, b) :: c :: rest
    else if i = c.1 then (i, b) :: rest
    else c :: memSet rest i b

/-- `buf[i]`: the byte written there, else the free value (10_state.md R49; log 3). -/
def bufRead (s : State) (i : Nat) : Byte :=
  (memGet s.buf i).getD (Config.bufUnspecified s.bufEpoch i)

/-- `buf[i] <- b`. -/
def bufWrite (i : Nat) (b : Byte) (s : State) : State := { s with buf := memSet s.buf i b }

/-! ### What the agents present -/

/-- Operation words put before everything else the host will present (30_encoding.md R104: an
expansion's operations "in that order"; log 5). -/
def presentOps (ws : List OpWord) (s : State) : State :=
  { s with hostIn := ws.map HostWord.op ++ s.hostIn }

/-- A beat that is not accepted waits at the transport: it is the next one presented
(43_dec.md R195; log 13). -/
def holdBeat (b : Beat) (s : State) : State := { s with rxIn := b.word :: s.rxIn }

/-! ### Reset -/

/-- A clock edge with `rst = 1`: every state variable of the block to its reset value, `buf`
unspecified (70_reset_and_hazards.md R300). What the agents will present is not accepted, and the
streams already emitted stay with their receivers (R301; log 14). -/
def resetBlock (s : State) : State :=
  { s with
    crc := State.reset.crc
    enc := EncState.reset
    work := DecWork.reset
    res := DecResult.reset
    buf := []
    bufEpoch := s.bufEpoch + 1 }

end Sys2Proof.Machine
end

