-- ==== Sys2Proof/Machine/Flags.lean ====
section
/-! DEFINITION. Verdict codes, flag bits and the level outputs (10_state.md R25, R28, R29;
20_memory.md R61). There are no arithmetic condition codes (10_state.md R28). -/

namespace Sys2Proof.Machine

/-- The 3-bit code of a verdict (10_state.md R25, 60_exceptions.md R272). -/
def verdictCode : Verdict → BitVec 3
  | .none => 0
  | .ok => 1
  | .tooShort => 2
  | .badSync => 3
  | .truncated => 4

/-- `ENC_STAT`: [0] BUSY, [7:1] read 0 (10_state.md R29). -/
def encStat (s : State) : Byte := 0#7 ++ BitVec.ofBool s.enc.busy

/-- `DEC_VERDICT`: [2:0] VERDICT, [7:3] read 0 (10_state.md R29). -/
def decVerdict (s : State) : Byte := 0#5 ++ verdictCode s.res.verdict

/-- `DEC_FLAGS`: [0] CRCVALID, [1] STVALID, [2] PAPER, [7:3] read 0 (10_state.md R29). -/
def decFlags (s : State) : Byte :=
  0#5 ++ BitVec.ofBool s.res.paper ++ BitVec.ofBool s.res.stvalid ++ BitVec.ofBool s.res.crcvalid

/-- The output `dec_irq`, a level equal to `dec_pending` (60_exceptions.md R275). -/
def decIrq (s : State) : Bool := s.res.pending

/-- The output `rx_ready`, `not dec_pending` (20_memory.md R61). -/
def rxReady (s : State) : Bool := !s.res.pending

end Sys2Proof.Machine
end

