-- ==== Sys2Proof/Machine/Operands.lean ====
section
/-! DEFINITION. Operand forms: register numbers (10_state.md R29), the halves of `enc_len`
(20_memory.md R67), message positions (43_dec.md R196), and the expansions of the pseudo-instructions
(30_encoding.md R104, 45_wire_commands.md R241 to R251). -/

namespace Sys2Proof.Machine

/-! ### Register numbers -/

/-- `reg[n]`, and `none` for an unimplemented number (10_state.md R29, 44_rd.md R231). -/
def readReg (s : State) (n : Byte) : Option Byte :=
  match n.toNat with
  | 0x00 => some s.crc
  | 0x01 => some s.enc.cmd
  | 0x02 => some s.enc.typ
  | 0x03 => some (lowByte s.enc.len)
  | 0x04 => some (highByte s.enc.len)
  | 0x05 => some (lowByte s.enc.rem)
  | 0x06 => some (highByte s.enc.rem)
  | 0x07 => some s.enc.crc
  | 0x08 => some (encStat s)
  | 0x10 => some (decVerdict s)
  | 0x11 => some s.res.cmd
  | 0x12 => some s.res.typ
  | 0x13 => some (lowByte s.res.len)
  | 0x14 => some (highByte s.res.len)
  | 0x15 => some s.res.crcrx
  | 0x16 => some s.res.crcexp
  | 0x17 => some s.res.endm
  | 0x18 => some (decFlags s)
  | 0x19 => some s.res.st0
  | 0x1A => some s.res.st1
  | 0x1B => some s.res.st2
  | 0x1C => some (lowByte s.res.rp)
  | 0x1D => some (highByte s.res.rp)
  | _ => none

/-- The read of a register by number: its value, or OpError (44_rd.md R230, R231). -/
def respondReg (n : Byte) (s : State) : State :=
  match readReg s n with
  | some v => respondOk v s
  | none => opError s

/-! ### Halves -/

/-- `h[7:0] <- b`, the other half unchanged (30_encoding.md R95 b). -/
def setLow (h : Half) (b : Byte) : Half := half b (highByte h)

/-- `h[15:8] <- b`, the other half unchanged (30_encoding.md R95 b). -/
def setHigh (h : Half) (b : Byte) : Half := half (lowByte h) b

/-! ### Message positions -/

/-- `L`, `{w_hdr[5], w_hdr[4]}` (10_state.md R24). -/
def workLen (w : DecWork) : Half := half w.hdr[4] w.hdr[5]

/-- `min(i + 1, 131071)` (43_dec.md R196). -/
def countUp (c : BitVec 17) : BitVec 17 := BitVec.ofNat 17 (min (c.toNat + 1) Config.decCntMax)

/-! ### Expansions into operation words -/

/-- The words that open a frame: `ENC.CMD c; ENC.TYPE t; ENC.LENL; ENC.LENH; ENC.START`
(30_encoding.md R104). -/
def openFrameWords (cmd typ : Byte) (len : Half) : List OpWord :=
  [opWord 0x30 cmd, opWord 0x31 typ, opWord 0x32 (lowByte len), opWord 0x33 (highByte len),
    opWord 0x34 0x00]

/-- `FRAME c, t, [p0, ...]` (30_encoding.md R104). DESIGN CHOICE: of a payload of more than 65535 bytes,
outside the domain (42_enc.md R172), the words carry the length mod 65536 (log 16). -/
def frameWords (cmd typ : Byte) (payload : List Byte) : List OpWord :=
  openFrameWords cmd typ (BitVec.ofNat 16 payload.length) ++ payload.map (opWord 0x35)

/-- `FRAMER c, t, [p0, ...]`: ENC.PUTR in place of ENC.PUT (30_encoding.md R104). DESIGN CHOICE beyond
65535 bytes as for `frameWords` (log 16). -/
def framerWords (cmd typ : Byte) (row : List Byte) : List OpWord :=
  openFrameWords cmd typ (BitVec.ofNat 16 row.length) ++ row.map (opWord 0x36)

/-- `CRC.BUF b0, ...`: CRC.CLR, CRC.UPD for every byte, `RD 0x00` (30_encoding.md R104; log 8). -/
def crcBufWords (s : List Byte) : List OpWord :=
  opWord 0x10 0x00 :: s.map (opWord 0x11) ++ [opWord 0x01 0x00]

/-- `DEC.DRAIN`: DEC.PAY `res_len - dec_rp` times, then DEC.ACK (30_encoding.md R104; log 8). -/
def decDrainWords (s : State) : List OpWord :=
  List.replicate (s.res.len.toNat - s.res.rp.toNat) (opWord 0x40 0x00) ++ [opWord 0x41 0x00]

/-- `PRINTBITMAP [row0, ...]`: PRINTROW for every row in order, then FEED 32, also for no rows
(45_wire_commands.md R251; log 8). DESIGN CHOICE: a row of more than 65535 bytes, which PRINTROW refuses
(log 7), is not refused here: its words are those of `framerWords` (log 16). -/
def printBitmapWords (rows : List (List Byte)) : List OpWord :=
  rows.flatMap (framerWords Config.cmdPrintRow Config.typeDefault) ++
    frameWords Config.cmdFeed Config.typeDefault (le16 Config.bitmapFeed)

/-- The host performs a wire command's expansion, when its payload is representable
(45_wire_commands.md R240; 42_enc.md R172; logs 5 and 7). -/
def expandFrame (cmd typ : Byte) (payload : List Byte) (s : State) : Result :=
  if payload.length ≤ Config.maxPayload then
    .next (presentOps (frameWords cmd typ payload) s)
  else .refused .payloadNotRepresentable

/-- As `expandFrame` with type byte `0x00`, and with ENC.PUTR for every byte
(45_wire_commands.md R243). -/
def expandFramer (cmd : Byte) (row : List Byte) (s : State) : Result :=
  if row.length ≤ Config.maxPayload then
    .next (presentOps (framerWords cmd Config.typeDefault row) s)
  else .refused .payloadNotRepresentable

end Sys2Proof.Machine
end

