-- ==== Sys2Proof/Machine/Brev.lean ====
section
/-! DEFINITION. The BREV unit's operation (41_brev.md R151). -/

namespace Sys2Proof.Machine

/-- `BREV b`: `Respond(0, rev8(b))`, no state read or written (41_brev.md R151). -/
def execBrev (b : Byte) (s : State) : Result := .next (respondOk (rev8 b) s)

end Sys2Proof.Machine
end

