-- ==== Sys2Proof/Machine/Crc.lean ====
section
/-! DEFINITION. The CRC unit's operations (40_crc.md R133, R134). -/

namespace Sys2Proof.Machine

/-- `CRC.CLR`: `crc <- 0x00; Respond(0, 0x00)` (40_crc.md R133). -/
def execCrcClr (s : State) : Result := .next (respondOk 0x00 { s with crc := Config.crcInit })

/-- `CRC.UPD b`: `crc <- crc8_step(crc, b); Respond(0, crc)` with the new value (40_crc.md R134). -/
def execCrcUpd (b : Byte) (s : State) : Result :=
  .next (respondOk (crc8Step s.crc b) { s with crc := crc8Step s.crc b })

end Sys2Proof.Machine
end

