-- ==== Sys2Proof/Machine/Dec.lean ====
section
/-! DEFINITION. The DEC unit: the RX beat, the latch, the status tap, DEC.PAY and DEC.ACK
(43_dec.md). -/

namespace Sys2Proof.Machine

/-- One message byte stored by its position, and counted (43_dec.md R196); `L` is read before this
beat's own write. -/
def storeByte (b : Byte) (s : State) : State :=
  let i := s.work.cnt.toNat
  let len := (workLen s.work).toNat
  let cnt := countUp s.work.cnt
  if h : i < 6 then
    { s with work := { s.work with cnt := cnt, hdr := s.work.hdr.set i b h } }
  else if i < 6 + len then
    bufWrite (i - 6) b { s with work := { s.work with cnt := cnt, crc := crc8Step s.work.crc b } }
  else if i = 6 + len then { s with work := { s.work with cnt := cnt, rxcrc := b } }
  else if i = 7 + len then { s with work := { s.work with cnt := cnt, endm := b } }
  else { s with work := { s.work with cnt := cnt } }

/-- An error verdict: the verdict and nothing else (43_dec.md R199). -/
def errorResult (v : Verdict) : DecResult := { DecResult.reset with pending := true, verdict := v }

/-- The result of a well-formed frame (43_dec.md R197) with the status tap (R198). -/
def okResult (s : State) : DecResult :=
  let len := workLen s.work
  let cmd := s.work.hdr[2]
  let status := decide (cmd = Config.cmdStatus ∧ Config.statusMinLen ≤ len.toNat)
  { pending := true
    verdict := .ok
    cmd := cmd
    typ := s.work.hdr[3]
    len := len
    crcrx := s.work.rxcrc
    crcexp := s.work.crc
    endm := s.work.endm
    crcvalid := decide (s.work.crc = s.work.rxcrc)
    stvalid := status
    paper := status && (bufRead s 0).getLsbD 0
    st0 := if status then bufRead s 0 else 0x00
    st1 := if status then bufRead s 1 else 0x00
    st2 := if status then bufRead s 2 else 0x00
    rp := 0 }

/-- The classification of the message received, in the order of the checks (43_dec.md R197, R191). -/
def classify (s : State) : DecResult :=
  let n := s.work.cnt.toNat
  let len := (workLen s.work).toNat
  if n < Config.minFrame then errorResult .tooShort
  else if s.work.hdr[0] ≠ Config.sync0 ∨ s.work.hdr[1] ≠ Config.sync1 then errorResult .badSync
  else if n < Config.minFrame + len then errorResult .truncated
  else okResult s

/-- `latch()`: the result, `dec_pending`, and the working state cleared (43_dec.md R197). -/
def latch (s : State) : State := { s with res := classify s, work := DecWork.reset }

/-- The RX beat `(b, last)`: accepted only while `dec_pending = 0`, else it waits
(43_dec.md R195, R196, R197). -/
def takeBeat (b : Beat) (s : State) : State :=
  if s.res.pending then holdBeat b s
  else if b.last then latch (storeByte b.data s)
  else storeByte b.data s

/-- `RXBEAT`: a beat with `last = 0` (43_dec.md R196). -/
def execRxBeat (b : Byte) (s : State) : Result := .next (takeBeat ⟨b, false⟩ s)

/-- `RXBEAT.LAST`: a beat with `last = 1`: store the byte, then latch the result (43_dec.md R197). -/
def execRxBeatLast (b : Byte) (s : State) : Result := .next (takeBeat ⟨b, true⟩ s)

/-- `DEC.PAY`: pop the next payload byte of the pending result, or OpError (43_dec.md R200). -/
def execDecPay (s : State) : Result :=
  if s.res.pending = true ∧ s.res.verdict = .ok ∧ s.res.rp < s.res.len then
    .next (respondOk (bufRead s s.res.rp.toNat) { s with res := { s.res with rp := s.res.rp + 1 } })
  else .next (opError s)

/-- `DEC.ACK`: release the pending result, or OpError (43_dec.md R202). -/
def execDecAck (s : State) : Result :=
  if s.res.pending then .next (respondOk 0x00 (releaseResult s)) else .next (opError s)

end Sys2Proof.Machine
end

