-- ==== Sys2Proof/Machine/Enc.lean ====
section
/-! DEFINITION. The ENC unit's operations (42_enc.md). -/

namespace Sys2Proof.Machine

/-- A header write: OpError while `enc_busy = 1`, else the new header and `Respond(0, 0x00)`
(42_enc.md R161). -/
def writeHeader (e : EncState) (s : State) : State :=
  if s.enc.busy then opError s else respondOk 0x00 { s with enc := e }

/-- The start of a frame (42_enc.md R166): the header, and for an empty payload the tail too. -/
def startFrame (s : State) : State :=
  if s.enc.busy then opError s
  else
    let header := openBeats (headerBytes s.enc.cmd s.enc.typ s.enc.len)
    if s.enc.len = 0 then
      respondOk 0x00
        (txEmit (header ++ tailBeats 0x00)
          { s with enc := { s.enc with crc := Config.crcInit, rem := s.enc.len } })
    else
      respondOk 0x00
        (txEmit header
          { s with enc := { s.enc with crc := Config.crcInit, rem := s.enc.len, busy := true } })

/-- One payload byte `v`, as it goes on the wire (42_enc.md R168): OpError while `enc_busy = 0`; the
byte, and with the last one owed the checksum and the end marker. `enc_rem` is tested on the new
value. -/
def putByte (v : Byte) (s : State) : State :=
  if s.enc.busy then
    let crc := crc8Step s.enc.crc v
    let rem := s.enc.rem - 1
    if rem = 0 then
      respondOk v
        (txEmit (⟨v, false⟩ :: tailBeats crc)
          { s with enc := { s.enc with crc := crc, rem := rem, busy := false } })
    else
      respondOk v (txEmit [⟨v, false⟩] { s with enc := { s.enc with crc := crc, rem := rem } })
  else opError s

/-- `ENC.CMD c` (42_enc.md R162). -/
def execEncCmd (c : Byte) (s : State) : Result := .next (writeHeader { s.enc with cmd := c } s)

/-- `ENC.TYPE t` (42_enc.md R164). -/
def execEncType (t : Byte) (s : State) : Result := .next (writeHeader { s.enc with typ := t } s)

/-- `ENC.LENL b`: `enc_len[7:0] <- b` (42_enc.md R165). -/
def execEncLenl (b : Byte) (s : State) : Result :=
  .next (writeHeader { s.enc with len := setLow s.enc.len b } s)

/-- `ENC.LENH b`: `enc_len[15:8] <- b` (42_enc.md R167). -/
def execEncLenh (b : Byte) (s : State) : Result :=
  .next (writeHeader { s.enc with len := setHigh s.enc.len b } s)

/-- `ENC.START` (42_enc.md R166). -/
def execEncStart (s : State) : Result := .next (startFrame s)

/-- `ENC.PUT b` (42_enc.md R168). -/
def execEncPut (b : Byte) (s : State) : Result := .next (putByte b s)

/-- `ENC.PUTR b`: reverse first, then as ENC.PUT (42_enc.md R169, R173). -/
def execEncPutr (b : Byte) (s : State) : Result := .next (putByte (rev8 b) s)

end Sys2Proof.Machine
end

