-- ==== Sys2Proof/Machine/Rd.lean ====
section
/-! DEFINITION. The register reads `RD` and `CRC.RD` (44_rd.md R230, R231; 40_crc.md R135). -/

namespace Sys2Proof.Machine

/-- `RD n`: `Respond(0, reg[n])`, or OpError for an unimplemented number; no state written
(44_rd.md R230, R231). -/
def execRd (n : Byte) (s : State) : Result := .next (respondReg n s)

/-- `CRC.RD`: "It is `RD 0x00`" (40_crc.md R135). -/
def execCrcRd (s : State) : Result := .next (respondReg 0x00 s)

end Sys2Proof.Machine
end

