-- ==== Sys2Proof/Machine/Wire.lean ====
section
/-! DEFINITION. The wire commands, macros over ENC: each is its expansion into operation words, which
the host presents next, one atomic operation each (45_wire_commands.md R240, 20_memory.md R68;
log 5). -/

namespace Sys2Proof.Machine

/-- `RETRACT steps`: `FRAME 0xA0, 0x00, [steps mod 256, steps div 256]` (45_wire_commands.md R242). -/
def execRetract (steps : Half) (s : State) : Result :=
  .next (presentOps (frameWords Config.cmdRetract Config.typeDefault (le16 steps)) s)

/-- `FEED steps`: `FRAME 0xA1, 0x00, [steps mod 256, steps div 256]` (45_wire_commands.md R241). -/
def execFeed (steps : Half) (s : State) : Result :=
  .next (presentOps (frameWords Config.cmdFeed Config.typeDefault (le16 steps)) s)

/-- `PRINTROW row`: `FRAMER 0xA2, 0x00, row` (45_wire_commands.md R243). -/
def execPrintRow (row : List Byte) (s : State) : Result := expandFramer Config.cmdPrintRow row s

/-- `GETSTATUS`: `FRAME 0xA3, 0x00, []` (45_wire_commands.md R245). -/
def execGetStatus (s : State) : Result :=
  .next (presentOps (frameWords Config.cmdStatus Config.typeDefault []) s)

/-- `SETDPI dpi`: `FRAME 0xA4, 0x00, [dpi]` (45_wire_commands.md R247). -/
def execSetDpi (dpi : Byte) (s : State) : Result :=
  .next (presentOps (frameWords Config.cmdSetDpi Config.typeDefault [dpi]) s)

/-- `GETINFO`: `FRAME 0xA8, 0x00, []` (45_wire_commands.md R246). -/
def execGetInfo (s : State) : Result :=
  .next (presentOps (frameWords Config.cmdGetInfo Config.typeDefault []) s)

/-- `SETENERGY energy`: `FRAME 0xAF, 0x00, [energy mod 256, energy div 256]`
(45_wire_commands.md R249). -/
def execSetEnergy (energy : Half) (s : State) : Result :=
  .next (presentOps (frameWords Config.cmdSetEnergy Config.typeDefault (le16 energy)) s)

/-- `SETSPEED speed`: `FRAME 0xBD, 0x00, [speed]` (45_wire_commands.md R248). -/
def execSetSpeed (speed : Byte) (s : State) : Result :=
  .next (presentOps (frameWords Config.cmdSetSpeed Config.typeDefault [speed]) s)

/-- `APPLYENERGY`: `FRAME 0xBE, 0x00, [0x01]` (45_wire_commands.md R244). -/
def execApplyEnergy (s : State) : Result :=
  .next
    (presentOps (frameWords Config.cmdApplyEnergy Config.typeDefault [Config.applyEnergyByte]) s)

/-- `SENDRAW cmd, payload`: `FRAME cmd, 0x00, payload` (45_wire_commands.md R250); with another type byte
in its frame, `FRAME` with that one (30_encoding.md R101, R104; log 6). -/
def execSendRaw (cmd : RawCode) (payload : List Byte) (s : State) : Result :=
  expandFrame cmd.command cmd.typeByte payload s

end Sys2Proof.Machine
end

