-- ==== Sys2Proof/Machine/Dispatch.lean ====
section
/-! DEFINITION. The one dispatch: each instruction to its meaning. -/

namespace Sys2Proof.Machine

def exec (i : Instr) (s : State) : Host.Outcome State Fault Refusal :=
  match i with
  -- 44_rd.md, 40_crc.md, 41_brev.md
  | .rd n => Sys2Proof.Machine.execRd n s
  | .crcClr => Sys2Proof.Machine.execCrcClr s
  | .crcUpd b => Sys2Proof.Machine.execCrcUpd b s
  | .brev b => Sys2Proof.Machine.execBrev b s
  -- 42_enc.md
  | .encCmd c => Sys2Proof.Machine.execEncCmd c s
  | .encType t => Sys2Proof.Machine.execEncType t s
  | .encLenl b => Sys2Proof.Machine.execEncLenl b s
  | .encLenh b => Sys2Proof.Machine.execEncLenh b s
  | .encStart => Sys2Proof.Machine.execEncStart s
  | .encPut b => Sys2Proof.Machine.execEncPut b s
  | .encPutr b => Sys2Proof.Machine.execEncPutr b s
  -- 43_dec.md
  | .decPay => Sys2Proof.Machine.execDecPay s
  | .decAck => Sys2Proof.Machine.execDecAck s
  | .crcRd => Sys2Proof.Machine.execCrcRd s
  | .rxBeat b => Sys2Proof.Machine.execRxBeat b s
  | .rxBeatLast b => Sys2Proof.Machine.execRxBeatLast b s
  -- 45_wire_commands.md
  | .retract steps => Sys2Proof.Machine.execRetract steps s
  | .feed steps => Sys2Proof.Machine.execFeed steps s
  | .printRow row => Sys2Proof.Machine.execPrintRow row s
  | .getStatus => Sys2Proof.Machine.execGetStatus s
  | .setDpi dpi => Sys2Proof.Machine.execSetDpi dpi s
  | .getInfo => Sys2Proof.Machine.execGetInfo s
  | .setEnergy energy => Sys2Proof.Machine.execSetEnergy energy s
  | .setSpeed speed => Sys2Proof.Machine.execSetSpeed speed s
  | .applyEnergy => Sys2Proof.Machine.execApplyEnergy s
  | .sendRaw cmd payload => Sys2Proof.Machine.execSendRaw cmd payload s

end Sys2Proof.Machine
end

