-- ==== Sys2Proof/Machine/Fetch.lean ====
section
/-! DEFINITION. What reaches the block at one step: the scheduled agent's next word or beat, taken
from its queue and decoded (20_memory.md R62, R64, R71; log 1). -/

namespace Sys2Proof.Machine

/-- What a step has to do, with the state after the turn and the word are taken. -/
inductive Fetched where
  /-- No transaction: no turn is scheduled, or the agent has nothing to present. -/
  | idle (s : State)
  /-- A clock edge with `rst = 1`. -/
  | reset (s : State)
  /-- An instruction. -/
  | instr (i : Instr) (s : State)
  /-- An operation word with an illegal opcode. -/
  | illegal (s : State)
  /-- Host bytes that are no wire command's frame. -/
  | unknown (why : DecodeReject) (s : State)

/-- A word the host presents: an illegal opcode is found before any state is looked at
(60_exceptions.md R276). -/
def fetchHost (w : HostWord) (s : State) : Fetched :=
  match w, decodeHost w with
  | _, .ok i => .instr i s
  | .op _, .error _ => .illegal s
  | .frame _, .error why => .unknown why s

/-- The scheduled agent's next transaction. -/
def fetch (s : State) : Fetched :=
  match s.sched with
  | [] => .idle s
  | .rst :: turns => .reset { s with sched := turns }
  | .host :: turns =>
    match s.hostIn with
    | [] => .idle { s with sched := turns }
    | w :: ws => fetchHost w { s with sched := turns, hostIn := ws }
  | .transport :: turns =>
    match s.rxIn with
    | [] => .idle { s with sched := turns }
    | w :: ws => .instr (decodeBeat w) { s with sched := turns, rxIn := ws }

/-- An encoded instruction put where the next step takes it: first in its agent's queue, that agent
scheduled first (log 1). -/
def placeEncoded (e : Encoded) (s : State) : State :=
  match e with
  | .host w => { s with hostIn := w :: s.hostIn, sched := .host :: s.sched }
  | .rx w => { s with rxIn := w :: s.rxIn, sched := .transport :: s.sched }

/-- A word of spec/opcode_table.json put where the next step takes it (log 6). -/
def placeTableWord (nbits w : Nat) (s : State) : State :=
  match tableWord nbits w with
  | some e => placeEncoded e s
  | none => s

end Sys2Proof.Machine
end

