-- ==== Sys2Proof/Machine/Step.lean ====
section
/-! DEFINITION. One step: one atomic transaction of the scheduled agent (20_memory.md R68), a clock
edge with `rst = 1` (70_reset_and_hazards.md R300), or nothing. -/

namespace Sys2Proof.Machine

def step (s : State) : Host.Outcome State Fault Refusal :=
  match fetch s with
  | .idle t => .next t
  | .reset t => .next (resetBlock t)
  | .instr i t => exec i t
  | .illegal t => .next (opError t)
  | .unknown why _ => .refused (.notAWireCommand why)

/-- A table word presented so that the very next step performs it (log 1, log 6). -/
def State.withFetchWord (s : State) (nbits w : Nat) : State := placeTableWord nbits w s

end Sys2Proof.Machine
end

