-- ==== Sys2Proof/Safety.lean ====
section
/-! DEFINITION. What counts as a legal state of the block, and the vocabulary the statements use: the
invariants of 10_state.md R40, the OpError causes of 60_exceptions.md R271, the result that a decoded
message leaves (43_dec.md R207), runs of instructions. -/

namespace Sys2Proof.Machine

/-! ### Invariants -/

/-- 10_state.md R40 (a), (b): idle owes nothing; a busy ENC owes 1 to `enc_len` bytes. -/
abbrev EncInv (s : State) : Prop :=
  (s.enc.busy = false → s.enc.rem = 0) ∧ (s.enc.busy = true → 1 ≤ s.enc.rem ∧ s.enc.rem ≤ s.enc.len)

/-- 10_state.md R40 (c) to (g). -/
abbrev ResInv (s : State) : Prop :=
  (s.res.pending = false → s.res = DecResult.reset) ∧
  (s.res.pending = true → s.res.verdict ≠ .none) ∧
  (s.res.verdict ≠ .ok →
    s.res = { DecResult.reset with pending := s.res.pending, verdict := s.res.verdict }) ∧
  s.res.rp ≤ s.res.len ∧
  (s.res.pending = true → s.work = DecWork.reset)

/-- How many payload bytes of the message in reception have been stored (10_state.md R24). -/
def received (w : DecWork) : Nat := min (w.cnt.toNat - 6) (workLen w).toNat

/-- `buf` keeps its canonical form, and holds every payload byte received so far and every payload byte
of an OK result, so that no rule reads an unspecified byte (10_state.md R49). -/
abbrev BufInv (s : State) : Prop :=
  Memory.wf s.buf ∧
  (∀ k, k < received s.work → (memGet s.buf k).isSome = true) ∧
  (s.res.verdict = .ok → ∀ k, k < s.res.len.toNat → (memGet s.buf k).isSome = true)

/-- The invariant of the block (10_state.md R40, R49). -/
abbrev Inv (s : State) : Prop := EncInv s ∧ ResInv s ∧ BufInv s

/-- What an OK result's flags and status registers say (10_state.md R35, R36). -/
abbrev FlagsInv (s : State) : Prop :=
  (s.res.verdict = .ok →
    (s.res.crcvalid = true ↔ s.res.crcexp = s.res.crcrx) ∧
    (s.res.stvalid = true ↔ s.res.cmd = 0xA3#8 ∧ 3 ≤ s.res.len.toNat)) ∧
  (s.res.stvalid = true →
    s.res.verdict = .ok ∧ s.res.paper = s.res.st0.getLsbD 0 ∧
    memGet s.buf 0 = some s.res.st0 ∧ memGet s.buf 1 = some s.res.st1 ∧
    memGet s.buf 2 = some s.res.st2) ∧
  (s.res.stvalid = false →
    s.res.paper = false ∧ s.res.st0 = 0 ∧ s.res.st1 = 0 ∧ s.res.st2 = 0)

/-- A frame: command, type byte, payload. -/
abbrev FrameParts := Byte × Byte × List Byte

/-- The beats of a frame (42_enc.md R160, R174). -/
def frameBeats (f : FrameParts) : List Beat := beatsOf (encodeFrame f.1 f.2.1 f.2.2)

/-- The TX stream is whole frames, followed by the part of the frame in progress that `enc_rem` and
`enc_crc` tell of (20_memory.md R63, 10_state.md R32). -/
def TxFramed (s : State) : Prop :=
  ∃ fs : List FrameParts, (∀ f ∈ fs, f.2.2.length ≤ 65535) ∧
    ((s.enc.busy = false ∧ s.enc.rem = 0 ∧ s.txOut = fs.flatMap frameBeats) ∨
     (s.enc.busy = true ∧ ∃ p : List Byte,
        s.txOut = fs.flatMap frameBeats ++
          openBeats (headerBytes s.enc.cmd s.enc.typ s.enc.len ++ p) ∧
        p.length + s.enc.rem.toNat = s.enc.len.toNat ∧ 1 ≤ s.enc.rem.toNat ∧
        s.enc.crc = crc8 p))

/-! ### Vocabulary -/

/-- An operation of the host: a row of format OP. -/
abbrev IsOperation (i : Instr) : Prop := i.format = .op

/-- An operation of the ENC unit. -/
def isEncOp : Instr → Bool
  | .encCmd _ | .encType _ | .encLenl _ | .encLenh _ | .encStart | .encPut _ | .encPutr _ => true
  | .rd _ | .crcClr | .crcUpd _ | .brev _ | .decPay | .decAck | .crcRd | .rxBeat _ | .rxBeatLast _
  | .retract _ | .feed _ | .printRow _ | .getStatus | .setDpi _ | .getInfo | .setEnergy _
  | .setSpeed _ | .applyEnergy | .sendRaw _ _ => false

/-- The complete table of OpError causes (60_exceptions.md R271), less illegal opcodes, which are no
instruction. -/
def OpErrorCause (i : Instr) (s : State) : Prop :=
  match i with
  | .rd n => (0x09 ≤ n.toNat ∧ n.toNat ≤ 0x0F) ∨ 0x1E ≤ n.toNat
  | .encCmd _ | .encType _ | .encLenl _ | .encLenh _ | .encStart => s.enc.busy = true
  | .encPut _ | .encPutr _ => s.enc.busy = false
  | .decPay => s.res.pending = false ∨ s.res.verdict ≠ .ok ∨ ¬ s.res.rp.toNat < s.res.len.toNat
  | .decAck => s.res.pending = false
  | .crcClr | .crcUpd _ | .brev _ | .crcRd | .rxBeat _ | .rxBeatLast _
  | .retract _ | .feed _ | .printRow _ | .getStatus | .setDpi _ | .getInfo | .setEnergy _
  | .setSpeed _ | .applyEnergy | .sendRaw _ _ => False

/-- The byte a `CRC.UPD` feeds. -/
def updByte : Instr → Option Byte
  | .crcUpd b => some b
  | .rd _ | .crcClr | .brev _ | .encCmd _ | .encType _ | .encLenl _ | .encLenh _
  | .encStart | .encPut _ | .encPutr _ | .decPay | .decAck | .crcRd | .rxBeat _ | .rxBeatLast _
  | .retract _ | .feed _ | .printRow _ | .getStatus | .setDpi _ | .getInfo | .setEnergy _
  | .setSpeed _ | .applyEnergy | .sendRaw _ _ => none

/-- The instruction an RX beat is (30_encoding.md R101). -/
def beatInstr (b : Beat) : Instr := if b.last then .rxBeatLast b.data else .rxBeat b.data

/-- The result group that the outcome of `decode` leaves (43_dec.md R207, R198, R199). -/
def resultOf : Decoded → DecResult
  | .tooShort => { DecResult.reset with pending := true, verdict := .tooShort }
  | .badSync => { DecResult.reset with pending := true, verdict := .badSync }
  | .truncated => { DecResult.reset with pending := true, verdict := .truncated }
  | .ok f =>
    { pending := true
      verdict := .ok
      cmd := f.command
      typ := f.typeByte
      len := f.payloadLength
      crcrx := f.checksumReceived
      crcexp := f.checksumExpected
      endm := f.endMarker
      crcvalid := f.crcValid
      stvalid := (statusOf f).isSome
      paper := ((statusOf f).map ParsedStatus.paperPresent).getD false
      st0 := ((statusOf f).map ParsedStatus.rawByte0).getD 0x00
      st1 := ((statusOf f).map ParsedStatus.rawByte1).getD 0x00
      st2 := ((statusOf f).map ParsedStatus.rawByte2).getD 0x00
      rp := 0 }

/-- Instructions performed one after another. -/
def execAll : List Instr → State → Result
  | [], s => .next s
  | i :: is, s =>
    match exec i s with
    | .next t => execAll is t
    | .fault r => .fault r
    | .refused r => .refused r

/-- The operations that build one frame, `FRAME c, t, p` (30_encoding.md R104). DESIGN CHOICE beyond 65535
bytes as for `frameWords` (log 16). -/
def frameInstrs (c t : Byte) (p : List Byte) : List Instr :=
  [.encCmd c, .encType t, .encLenl (BitVec.ofNat 8 (p.length % 256)),
    .encLenh (BitVec.ofNat 8 (p.length / 256)), .encStart] ++ p.map .encPut

/-- As `frameInstrs`, with ENC.PUTR in place of ENC.PUT: `FRAMER c, t, p` (30_encoding.md R104). DESIGN
CHOICE beyond 65535 bytes as for `frameWords` (log 16). -/
def framerInstrs (c t : Byte) (p : List Byte) : List Instr :=
  [.encCmd c, .encType t, .encLenl (BitVec.ofNat 8 (p.length % 256)),
    .encLenh (BitVec.ofNat 8 (p.length / 256)), .encStart] ++ p.map .encPutr

end Sys2Proof.Machine
end

