-- ==== Sys2Proof/Certificates/Slice0/Obligations.lean ====
section
/-! DEFINITION. The statements for the provers, from the numbered rules of spec/. Nothing is proved
here. `bufEpoch`, `hostIn`, `rxIn`, `sched`, `txOut`, `rspOut` are the model's own fields (logs 1 to
3). -/

open Sys2Proof Sys2Proof.Machine

/-! ### Reset and the step -/

/-- 10_state.md R48: after reset every state variable is zero, every register reads `0x00`,
`dec_irq = 0`, no TX beat is pending and the RX port is ready. -/
def Obligations.ResetLeavesEverythingZero : Prop :=
  State.reset.crc = 0 ∧
  State.reset.enc = { cmd := 0, typ := 0, len := 0, rem := 0, crc := 0, busy := false } ∧
  State.reset.work.cnt = 0 ∧ (∀ (k : Nat) (h : k < 6), State.reset.work.hdr[k] = 0) ∧
  State.reset.work.crc = 0 ∧ State.reset.work.rxcrc = 0 ∧ State.reset.work.endm = 0 ∧
  State.reset.res =
    { pending := false, verdict := .none, cmd := 0, typ := 0, len := 0, crcrx := 0, crcexp := 0,
      endm := 0, crcvalid := false, stvalid := false, paper := false, st0 := 0, st1 := 0, st2 := 0,
      rp := 0 } ∧
  (∀ (n v : Byte), readReg State.reset n = some v → v = 0) ∧
  decIrq State.reset = false ∧ State.reset.txOut = [] ∧ rxReady State.reset = true

/-- 70_reset_and_hazards.md R300: a `rst` turn, from any state: every state variable at its reset
value, no word or beat accepted, no response, no TX beat. -/
def Obligations.ResetTurnResetsTheBlock : Prop :=
  ∀ (s : State) (turns : List Turn), s.sched = .rst :: turns →
    ∃ t, step s = .next t ∧
      t.crc = 0 ∧ t.enc = State.reset.enc ∧ t.work = State.reset.work ∧ t.res = State.reset.res ∧
      t.hostIn = s.hostIn ∧ t.rxIn = s.rxIn ∧ t.sched = turns ∧
      t.txOut = s.txOut ∧ t.rspOut = s.rspOut

/-- A step runs the decoded instruction, on the host's turn: it is `exec` of the instruction that the
next word decodes to, at the state with the turn and the word taken. -/
def Obligations.StepRunsTheHostsInstruction : Prop :=
  ∀ (s : State) (turns : List Turn) (w : HostWord) (ws : List HostWord) (i : Instr),
    s.sched = .host :: turns → s.hostIn = w :: ws → decode (.host w) = .ok i →
      step s = exec i { s with sched := turns, hostIn := ws }

/-- A step runs the decoded instruction, on the transport's turn: it is `exec` of the beat that is
presented, at the state with the turn and the beat taken. -/
def Obligations.StepRunsTheTransportsBeat : Prop :=
  ∀ (s : State) (turns : List Turn) (b : Beat) (ws : List BeatWord),
    s.sched = .transport :: turns → s.rxIn = b.word :: ws →
      step s = exec (beatInstr b) { s with sched := turns, rxIn := ws }

/-- 30_encoding.md R98: an operation word with an opcode outside the map is OpError, in any state. -/
def Obligations.IllegalOpcodeIsOpError : Prop :=
  ∀ (s : State) (turns : List Turn) (opcode imm : Byte) (ws : List HostWord),
    opcode ∉ [0x01#8, 0x10, 0x11, 0x20, 0x30, 0x31, 0x32, 0x33, 0x34, 0x35, 0x36, 0x40, 0x41] →
    s.sched = .host :: turns → s.hostIn = .op (opcode ++ imm) :: ws →
      step s =
        .next { s with sched := turns, hostIn := ws, rspOut := s.rspOut ++ [⟨true, 0x00⟩] }

/-- The model's choice (log 1): with no turn scheduled, or an agent with nothing to present, the block
waits and nothing of its state changes. -/
def Obligations.NothingPresentedNothingHappens : Prop :=
  (∀ s : State, s.sched = [] → step s = .next s) ∧
  (∀ (s : State) (turns : List Turn), s.sched = .host :: turns → s.hostIn = [] →
    step s = .next { s with sched := turns }) ∧
  (∀ (s : State) (turns : List Turn), s.sched = .transport :: turns → s.rxIn = [] →
    step s = .next { s with sched := turns })

/-- The model's choice (log 6): host bytes that are no wire command's frame are refused by name. -/
def Obligations.UnknownFrameIsRefusedByName : Prop :=
  ∀ (s : State) (turns : List Turn) (bytes : List Byte) (ws : List HostWord) (why : DecodeReject),
    s.sched = .host :: turns → s.hostIn = .frame bytes :: ws → decodeFrame bytes = .error why →
      step s = .refused (.notAWireCommand why)

/-! ### Encodings -/

/-- 30_encoding.md R96: words written out from the opcode map decode to their operations. -/
def Obligations.OpcodeMapWordsDecode : Prop :=
  decodeOp 0x0110 = .ok (.rd 0x10) ∧ decodeOp 0x10AB = .ok .crcClr ∧
  decodeOp 0x1120 = .ok (.crcUpd 0x20) ∧ decodeOp 0x20CA = .ok (.brev 0xCA) ∧
  decodeOp 0x30A1 = .ok (.encCmd 0xA1) ∧ decodeOp 0x3107 = .ok (.encType 0x07) ∧
  decodeOp 0x3202 = .ok (.encLenl 0x02) ∧ decodeOp 0x3301 = .ok (.encLenh 0x01) ∧
  decodeOp 0x34CD = .ok .encStart ∧ decodeOp 0x3520 = .ok (.encPut 0x20) ∧
  decodeOp 0x3680 = .ok (.encPutr 0x80) ∧ decodeOp 0x40FF = .ok .decPay ∧
  decodeOp 0x4101 = .ok .decAck ∧ decodeOp 0x0100 = .ok .crcRd

/-- Decode and encode agree, for every instruction: the encoding of a well-formed instruction decodes to
the instruction that is read from it, which is the instruction itself but for `RD 0x00` (read as CRC.RD,
log 6) and a SENDRAW with type byte `0x00` of a defined command's frame (log 6). -/
def Obligations.DecodeOfEncodeIsTheInstruction : Prop :=
  ∀ i : Instr, WellFormed i →
    decode (encode i) = .ok i.canonical ∧
    (i.canonical = i ∨ i = .rd 0x00 ∨ ∃ cmd payload, i = .sendRaw ⟨cmd, 0x00⟩ payload)

/-- An instruction and the one read from its encoding have the same encoding. -/
def Obligations.CanonicalHasTheSameEncoding : Prop :=
  ∀ i : Instr, WellFormed i → WellFormed i.canonical ∧ encode i.canonical = encode i

/-- 30_encoding.md R91, R97: no bit of an operation word is dropped but an ignored operand. -/
def Obligations.EncodeOfDecodeOpIsTheWord : Prop :=
  ∀ (opcode imm : Byte) (i : Instr), decodeOp (opcode ++ imm) = .ok i →
    encode i = .host (.op (opcode ++ imm)) ∨
    (encode i = .host (.op (opcode ++ 0x00#8)) ∧
      (i = .crcClr ∨ i = .encStart ∨ i = .decPay ∨ i = .decAck))

/-- 30_encoding.md R97: for the four operations without operand, all 256 values of `imm8` select the
same operation. -/
def Obligations.IgnoredOperandSelectsTheSameOperation : Prop :=
  ∀ (opcode imm imm' : Byte), opcode ∈ [0x10#8, 0x34, 0x40, 0x41] →
    ∃ i, decodeOp (opcode ++ imm) = .ok i ∧ decodeOp (opcode ++ imm') = .ok i ∧
      encode i = .host (.op (opcode ++ 0x00#8))

/-- 30_encoding.md R94: a byte string decoded as a wire command is exactly that command's frame. -/
def Obligations.DecodedFrameIsTheCommandsFrame : Prop :=
  ∀ (bytes : List Byte) (i : Instr), decodeFrame bytes = .ok i →
    WellFormed i ∧ encode i = .host (.frame bytes)

/-! ### The CRC unit -/

/-- 40_crc.md R133: CRC.CLR: its words, and its effect in every state. -/
def Obligations.CrcClrClears : Prop :=
  (∀ imm : Byte, decodeOp (0x10#8 ++ imm) = .ok .crcClr) ∧
  ∀ s : State,
    exec .crcClr s = .next { s with crc := 0x00, rspOut := s.rspOut ++ [⟨false, 0x00⟩] }

/-- 40_crc.md R134: CRC.UPD: its words, and its effect in every state. -/
def Obligations.CrcUpdFeedsOneByte : Prop :=
  ∀ b : Byte,
    decodeOp (0x11#8 ++ b) = .ok (.crcUpd b) ∧
    ∀ s : State,
      exec (.crcUpd b) s =
        .next { s with crc := crc8Step s.crc b
                       rspOut := s.rspOut ++ [⟨false, crc8Step s.crc b⟩] }

/-- 40_crc.md R135: CRC.RD is `RD 0x00`. -/
def Obligations.CrcRdReadsTheAccumulator : Prop :=
  ∀ s : State,
    exec .crcRd s = .next { s with rspOut := s.rspOut ++ [⟨false, s.crc⟩] } ∧
    exec .crcRd s = exec (.rd 0x00) s

/-- 40_crc.md R132: `crc8_step` depends on `c ^ b` only, is linear over exclusive-or, is the eight
parallel equations, and is a bijection in each argument. -/
def Obligations.CrcStepEquivalentForms : Prop :=
  (∀ c b : Byte, crc8Step c b = crc8Step 0x00 (c ^^^ b)) ∧
  (∀ c c' b b' : Byte, crc8Step (c ^^^ c') (b ^^^ b') = crc8Step c b ^^^ crc8Step c' b') ∧
  crc8Step 0x00 0x00 = 0x00 ∧
  (∀ c b : Byte,
    let x := fun k => (c ^^^ b).getLsbD k
    let n := fun k => (crc8Step c b).getLsbD k
    n 0 = (x 0 ^^ x 6 ^^ x 7) ∧
    n 1 = (x 0 ^^ x 1 ^^ x 6) ∧
    n 2 = (x 0 ^^ x 1 ^^ x 2 ^^ x 6) ∧
    n 3 = (x 1 ^^ x 2 ^^ x 3 ^^ x 7) ∧
    n 4 = (x 2 ^^ x 3 ^^ x 4) ∧
    n 5 = (x 3 ^^ x 4 ^^ x 5) ∧
    n 6 = (x 4 ^^ x 5 ^^ x 6) ∧
    n 7 = (x 5 ^^ x 6 ^^ x 7)) ∧
  (∀ b v : Byte, ∃ c, crc8Step c b = v ∧ ∀ c', crc8Step c' b = v → c' = c) ∧
  (∀ c v : Byte, ∃ b, crc8Step c b = v ∧ ∀ b', crc8Step c b' = v → b' = b)

/-- 40_crc.md R138: the consequences (a) to (e). -/
def Obligations.ChecksumLaws : Prop :=
  crc8 [] = 0x00 ∧
  (∀ k : Nat, crc8 (List.replicate k 0x00#8) = 0x00) ∧
  (∀ s : List Byte, crc8 (0x00#8 :: s) = crc8 s) ∧
  (∀ s : List Byte, crc8 (s ++ [crc8 s]) = 0x00) ∧
  crc8 [0x01] = 0x07 ∧
  (∀ s t : List Byte, s.length = t.length →
    crc8 (List.zipWith (fun a b => a ^^^ b) s t) = crc8 s ^^^ crc8 t)

/-- 40_crc.md R136: after CRC.CLR, or from reset, and any instructions with no further CRC.CLR, `crc` is
the checksum of the bytes the CRC.UPDs among them fed, and the response to each CRC.UPD carries the
checksum so far. -/
def Obligations.CrcOperationsComputeTheChecksum : Prop :=
  (∀ (is : List Instr) (s t : State), Instr.crcClr ∉ is →
    execAll (.crcClr :: is) s = .next t → t.crc = crc8 (is.filterMap updByte)) ∧
  (∀ (is : List Instr) (t : State), Instr.crcClr ∉ is →
    execAll is State.reset = .next t → t.crc = crc8 (is.filterMap updByte)) ∧
  (∀ (is : List Instr) (b : Byte) (s t : State), Instr.crcClr ∉ is →
    execAll (.crcClr :: is ++ [.crcUpd b]) s = .next t →
      t.rspOut.getLast? = some ⟨false, crc8 (is.filterMap updByte ++ [b])⟩)

/-! ### The BREV unit -/

/-- 41_brev.md R150, R151: BREV answers the byte whose bit `i` is bit `7 - i` of the operand, in every
state, and changes nothing else. -/
def Obligations.BrevReversesTheByte : Prop :=
  ∀ b : Byte,
    decodeOp (0x20#8 ++ b) = .ok (.brev b) ∧
    (∀ k, k < 8 → (rev8 b).getLsbD k = b.getLsbD (7 - k)) ∧
    ∀ s : State, exec (.brev b) s = .next { s with rspOut := s.rspOut ++ [⟨false, rev8 b⟩] }

/-- 41_brev.md R152 (a) to (e): involution, the source's two values, linearity, the fixed points, the
swap cascade. -/
def Obligations.BitReversalLaws : Prop :=
  (∀ x : Byte, rev8 (rev8 x) = x) ∧
  (rev8 0b10000000#8 = 0b00000001#8 ∧ rev8 0b11001010#8 = 0b01010011#8) ∧
  (∀ x y : Byte, rev8 (x ^^^ y) = rev8 x ^^^ rev8 y ∧ rev8 (x &&& y) = rev8 x &&& rev8 y ∧
    rev8 (x ||| y) = rev8 x ||| rev8 y) ∧
  (∀ x : Byte, rev8 (~~~x) = ~~~(rev8 x)) ∧
  (∀ x : Byte, rev8 x = x ↔
    x ∈ [0x00#8, 0x18, 0x24, 0x3C, 0x42, 0x5A, 0x66, 0x7E, 0x81, 0x99, 0xA5, 0xBD, 0xC3, 0xDB,
      0xE7, 0xFF]) ∧
  (∀ x : Byte,
    let a := ((x &&& 0xF0#8) >>> 4) ||| ((x &&& 0x0F#8) <<< 4)
    let b := ((a &&& 0xCC#8) >>> 2) ||| ((a &&& 0x33#8) <<< 2)
    rev8 x = ((b &&& 0xAA#8) >>> 1) ||| ((b &&& 0x55#8) <<< 1))

/-! ### Register reads -/

/-- 44_rd.md R230, R231, 10_state.md R29: RD of an implemented number answers the register's value and
changes nothing; of any other it is OpError. (The word of `RD 0x00` is read as CRC.RD, log 6, which is the
same.) -/
def Obligations.RdAnswersTheRegister : Prop :=
  (∀ n : Byte, decodeOp (0x01#8 ++ n) = .ok (if n = 0x00 then .crcRd else .rd n)) ∧
  ∀ s : State,
    (∀ n : Byte, (0x09 ≤ n.toNat ∧ n.toNat ≤ 0x0F) ∨ 0x1E ≤ n.toNat →
      exec (.rd n) s = .next { s with rspOut := s.rspOut ++ [⟨true, 0x00⟩] }) ∧
    exec .crcRd s = exec (.rd 0x00) s ∧
    let byte := fun (n : Nat) => (BitVec.ofNat 8 n : Byte)
    let bit := fun (b : Bool) => if b then 1 else 0
    ∀ r ∈ ([(0x00, s.crc), (0x01, s.enc.cmd), (0x02, s.enc.typ),
        (0x03, byte (s.enc.len.toNat % 256)), (0x04, byte (s.enc.len.toNat / 256)),
        (0x05, byte (s.enc.rem.toNat % 256)), (0x06, byte (s.enc.rem.toNat / 256)),
        (0x07, s.enc.crc), (0x08, byte (bit s.enc.busy)),
        (0x10, byte (match s.res.verdict with
          | .none => 0 | .ok => 1 | .tooShort => 2 | .badSync => 3 | .truncated => 4)),
        (0x11, s.res.cmd), (0x12, s.res.typ),
        (0x13, byte (s.res.len.toNat % 256)), (0x14, byte (s.res.len.toNat / 256)),
        (0x15, s.res.crcrx), (0x16, s.res.crcexp), (0x17, s.res.endm),
        (0x18, byte (bit s.res.crcvalid + 2 * bit s.res.stvalid + 4 * bit s.res.paper)),
        (0x19, s.res.st0), (0x1A, s.res.st1), (0x1B, s.res.st2),
        (0x1C, byte (s.res.rp.toNat % 256)), (0x1D, byte (s.res.rp.toNat / 256))]
        : List (Byte × Byte)),
      exec (.rd r.1) s = .next { s with rspOut := s.rspOut ++ [⟨false, r.2⟩] }

/-! ### The ENC unit -/

/-- 42_enc.md R162, R164, R165, R167: the header writes, their words, their effect while
`enc_busy = 0` (each half of `enc_len` leaves the other as it was), and OpError while
`enc_busy = 1`. -/
def Obligations.EncHeaderWritesWhileIdle : Prop :=
  ∀ b : Byte,
    (decodeOp (0x30#8 ++ b) = .ok (.encCmd b) ∧ decodeOp (0x31#8 ++ b) = .ok (.encType b) ∧
      decodeOp (0x32#8 ++ b) = .ok (.encLenl b) ∧ decodeOp (0x33#8 ++ b) = .ok (.encLenh b)) ∧
    ∀ s : State,
      let done := fun (e : EncState) =>
        (Host.Outcome.next { s with enc := e, rspOut := s.rspOut ++ [⟨false, 0x00⟩] } : Result)
      (s.enc.busy = false →
        exec (.encCmd b) s = done { s.enc with cmd := b } ∧
        exec (.encType b) s = done { s.enc with typ := b } ∧
        exec (.encLenl b) s =
          done { s.enc with len := (s.enc.len &&& 0xFF00#16) ||| b.setWidth 16 } ∧
        exec (.encLenh b) s =
          done { s.enc with len := (s.enc.len &&& 0x00FF#16) ||| (b.setWidth 16 <<< 8) }) ∧
      (s.enc.busy = true →
        ∀ i ∈ [Instr.encCmd b, .encType b, .encLenl b, .encLenh b],
          exec i s = .next { s with rspOut := s.rspOut ++ [⟨true, 0x00⟩] })

/-- 42_enc.md R161: while `enc_busy = 1` each header write and ENC.START is OpError. -/
def Obligations.EncHeaderLockedWhileBusy : Prop :=
  ∀ (b : Byte) (s : State), s.enc.busy = true →
    ∀ i ∈ [Instr.encCmd b, .encType b, .encLenl b, .encLenh b, .encStart],
      exec i s = .next { s with rspOut := s.rspOut ++ [⟨true, 0x00⟩] }

/-- 42_enc.md R166: ENC.START: its words; while `enc_busy = 0`, the header, and the tail too when the
length is zero; OpError while `enc_busy = 1`. -/
def Obligations.EncStartEmitsTheHeader : Prop :=
  (∀ imm : Byte, decodeOp (0x34#8 ++ imm) = .ok .encStart) ∧
  ∀ s : State,
    let header : List Beat :=
      [⟨0x51, false⟩, ⟨0x78, false⟩, ⟨s.enc.cmd, false⟩, ⟨s.enc.typ, false⟩,
        ⟨s.enc.len.setWidth 8, false⟩, ⟨(s.enc.len >>> 8).setWidth 8, false⟩]
    (s.enc.busy = true →
      exec .encStart s = .next { s with rspOut := s.rspOut ++ [⟨true, 0x00⟩] }) ∧
    (s.enc.busy = false → s.enc.len = 0 →
      exec .encStart s =
        .next { s with
          enc := { s.enc with crc := 0x00, rem := 0 }
          txOut := s.txOut ++ header ++ [⟨0x00, false⟩, ⟨0xFF, true⟩]
          rspOut := s.rspOut ++ [⟨false, 0x00⟩] }) ∧
    (s.enc.busy = false → s.enc.len ≠ 0 →
      exec .encStart s =
        .next { s with
          enc := { s.enc with crc := 0x00, rem := s.enc.len, busy := true }
          txOut := s.txOut ++ header
          rspOut := s.rspOut ++ [⟨false, 0x00⟩] })

/-- 42_enc.md R168, R169: ENC.PUT and ENC.PUTR: their words; with a byte owed after it, with the last
one owed, and while idle. (A busy ENC owes at least one byte: EveryStepKeepsTheInvariant.) -/
def Obligations.EncPutEmitsOneByte : Prop :=
  ∀ (b v : Byte) (i : Instr) (s : State), (i = .encPut b ∧ v = b) ∨ (i = .encPutr b ∧ v = rev8 b) →
    (decodeOp (0x35#8 ++ b) = .ok (.encPut b) ∧ decodeOp (0x36#8 ++ b) = .ok (.encPutr b)) ∧
    (s.enc.busy = true → 1 < s.enc.rem.toNat →
      exec i s =
        .next { s with
          enc := { s.enc with crc := crc8Step s.enc.crc v, rem := s.enc.rem - 1 }
          txOut := s.txOut ++ [⟨v, false⟩]
          rspOut := s.rspOut ++ [⟨false, v⟩] }) ∧
    (s.enc.busy = true → s.enc.rem = 1 →
      exec i s =
        .next { s with
          enc := { s.enc with crc := crc8Step s.enc.crc v, rem := 0, busy := false }
          txOut := s.txOut ++ [⟨v, false⟩, ⟨crc8Step s.enc.crc v, false⟩, ⟨0xFF, true⟩]
          rspOut := s.rspOut ++ [⟨false, v⟩] }) ∧
    (s.enc.busy = false →
      exec i s = .next { s with rspOut := s.rspOut ++ [⟨true, 0x00⟩] })

/-- 42_enc.md R176: the operations of `FRAME c, t, p` (and with ENC.PUTR of `FRAMER`) from an idle ENC
all respond `err = 0` and emit exactly `encode(c, p, t)`; other units' instructions and RX beats among
them make no difference to the stream and the ENC state. -/
def Obligations.FrameOperationsEmitTheEncodedFrame : Prop :=
  ∀ (s : State) (c t : Byte) (p q : List Byte) (frame : List Instr),
    s.enc.busy = false → p.length ≤ 65535 →
    (frame = frameInstrs c t p ∧ q = p) ∨ (frame = framerInstrs c t p ∧ q = p.map rev8) →
    let enc : EncState :=
      { cmd := c, typ := t, len := BitVec.ofNat 16 p.length, rem := 0, crc := crc8 q,
        busy := false }
    execAll frame s =
      .next { s with
        enc := enc
        txOut := s.txOut ++ beatsOf (encodeFrame c t q)
        rspOut := s.rspOut ++ List.replicate 5 ⟨false, 0x00⟩ ++ q.map (fun b => ⟨false, b⟩) } ∧
    (∀ (is : List Instr) (u : State), is.filter isEncOp = frame → execAll is s = .next u →
      u.enc = enc ∧ u.txOut = s.txOut ++ beatsOf (encodeFrame c t q)) ∧
    (beatsOf (encodeFrame c t q)).length = 8 + p.length

/-- 20_memory.md R63, 10_state.md R32, 42_enc.md R174: the TX stream stays whole frames followed by the
part of the frame in progress that `enc_rem` and `enc_crc` tell of, at every step but a reset in the
middle of a frame (70_reset_and_hazards.md R301). -/
def Obligations.TxStreamStaysWholeFrames : Prop :=
  ∀ s t : State, TxFramed s → (s.enc.busy = true → s.sched.head? ≠ some .rst) →
    step s = .next t → TxFramed t

/-- 42_enc.md R175: a step leaves PAYLOAD only by emitting the last byte owed, or by reset; there is no
timeout and no abort. -/
def Obligations.PayloadIsLeftOnlyByItsLastByteOrReset : Prop :=
  ∀ s t : State, s.enc.busy = true → step s = .next t → t.enc.busy = false →
    s.sched.head? = some .rst ∨
    (s.enc.rem = 1 ∧ t.enc.rem = 0 ∧
      ∃ v : Byte, t.txOut = s.txOut ++ [⟨v, false⟩, ⟨t.enc.crc, false⟩, ⟨0xFF, true⟩])

/-! ### The wire commands -/

/-- 45_wire_commands.md R241, R242, R244 to R249: each wire command of a fixed layout is presented as
the words of its expansion, in that order, before anything else; nothing of the block changes. -/
def Obligations.WireCommandsExpandToTheirWords : Prop :=
  ∀ (v : Half) (b : Byte) (s : State),
    let lo : Byte := BitVec.ofNat 8 (v.toNat % 256)
    let hi : Byte := BitVec.ofNat 8 (v.toNat / 256)
    let next := fun (ws : List OpWord) =>
      (Host.Outcome.next { s with hostIn := ws.map HostWord.op ++ s.hostIn } : Result)
    exec (.retract v) s =
      next [0x30A0, 0x3100, 0x3202, 0x3300, 0x3400, 0x35#8 ++ lo, 0x35#8 ++ hi] ∧
    exec (.feed v) s =
      next [0x30A1, 0x3100, 0x3202, 0x3300, 0x3400, 0x35#8 ++ lo, 0x35#8 ++ hi] ∧
    exec (.setEnergy v) s =
      next [0x30AF, 0x3100, 0x3202, 0x3300, 0x3400, 0x35#8 ++ lo, 0x35#8 ++ hi] ∧
    exec (.setDpi b) s = next [0x30A4, 0x3100, 0x3201, 0x3300, 0x3400, 0x35#8 ++ b] ∧
    exec (.setSpeed b) s = next [0x30BD, 0x3100, 0x3201, 0x3300, 0x3400, 0x35#8 ++ b] ∧
    exec .applyEnergy s = next [0x30BE, 0x3100, 0x3201, 0x3300, 0x3400, 0x3501] ∧
    exec .getStatus s = next [0x30A3, 0x3100, 0x3200, 0x3300, 0x3400] ∧
    exec .getInfo s = next [0x30A8, 0x3100, 0x3200, 0x3300, 0x3400]

/-- 45_wire_commands.md R243, R250: PRINTROW (ENC.PUTR for every byte) and SENDRAW (ENC.PUT), for every
representable payload; a longer one, which cannot be written, is refused by name (log 7). R250's own
SENDRAW has `ty = 0x00`; any other type byte is emitted as given (30_encoding.md R101; log 6). -/
def Obligations.PayloadCommandsExpandToTheirWords : Prop :=
  ∀ (c ty : Byte) (p : List Byte) (s : State),
    let words := fun (cmd typ put : Byte) =>
      [0x30#8 ++ cmd, 0x31#8 ++ typ, 0x32#8 ++ (BitVec.ofNat 8 (p.length % 256) : Byte),
        0x33#8 ++ (BitVec.ofNat 8 (p.length / 256) : Byte), 0x3400#16] ++
        p.map (fun b => (put ++ b : OpWord))
    (p.length ≤ 65535 →
      exec (.printRow p) s =
        .next { s with hostIn := (words 0xA2 0x00 0x36).map HostWord.op ++ s.hostIn } ∧
      exec (.sendRaw ⟨c, ty⟩ p) s =
        .next { s with hostIn := (words c ty 0x35).map HostWord.op ++ s.hostIn }) ∧
    (65535 < p.length →
      exec (.printRow p) s = .refused .payloadNotRepresentable ∧
      exec (.sendRaw ⟨c, ty⟩ p) s = .refused .payloadNotRepresentable)

/-- 45_wire_commands.md R240: a wire command presented to an idle ENC, given one turn for the command
and one for each of its `5 + L` words, sends exactly its frame of `8 + L` bytes as one message. Its type
byte is `0x00`, but for a SENDRAW whose frame has another (log 6). -/
def Obligations.WireCommandSendsItsFrame : Prop :=
  ∀ (i : Instr) (bytes : List Byte) (s : State) (rest : List HostWord) (turns : List Turn),
    WellFormed i → encode i = .host (.frame bytes) →
    s.enc.busy = false → s.hostIn = .frame bytes :: rest →
    s.sched = List.replicate (bytes.length - 2) .host ++ turns →
    ∃ (t : State) (answers : List Rsp),
      Host.Core.run Sys2Proof.core (bytes.length - 2) s = .next t ∧
      t.txOut = s.txOut ++ beatsOf bytes ∧
      t.rspOut = s.rspOut ++ answers ∧ answers.length = bytes.length - 3 ∧
      (∀ r ∈ answers, r.err = false) ∧
      t.hostIn = rest ∧ t.sched = turns ∧ t.enc.busy = false ∧
      t.enc.typ = byteAt bytes 3 ∧
      (byteAt bytes 3 = 0x00 ∨ ∃ cmd payload, i = .sendRaw cmd payload) ∧
      t.crc = s.crc ∧ t.work = s.work ∧ t.res = s.res ∧ t.buf = s.buf

/-- 45_wire_commands.md R251: the words of `PRINTBITMAP` send one printBitmapRow frame for every row, in
order, each byte reversed, and then the frame of `feed(32)`: `k + 1` frames. -/
def Obligations.PrintBitmapSendsRowsThenFeed : Prop :=
  ∀ (rows : List (List Byte)) (s : State) (rest : List HostWord) (turns : List Turn),
    (∀ row ∈ rows, row.length ≤ 65535) → s.enc.busy = false →
    s.hostIn = (printBitmapWords rows).map HostWord.op ++ rest →
    s.sched = List.replicate (printBitmapWords rows).length .host ++ turns →
    ∃ t : State,
      Host.Core.run Sys2Proof.core (printBitmapWords rows).length s = .next t ∧
      t.txOut = s.txOut ++
        (rows.map (fun row => beatsOf (encodeFrame 0xA2 0x00 (row.map rev8)))).flatten ++
        beatsOf (encodeFrame 0xA1 0x00 [0x20, 0x00]) ∧
      t.hostIn = rest ∧ t.sched = turns ∧ t.enc.busy = false

/-! ### The DEC unit -/

/-- 43_dec.md R191: which verdict wins when several checks would fail. -/
def Obligations.DecodeChecksInOrder : Prop :=
  ∀ raw : List Byte,
    (raw.length < 8 → decodeMessage raw = .tooShort) ∧
    (8 ≤ raw.length → (byteAt raw 0 ≠ 0x51 ∨ byteAt raw 1 ≠ 0x78) →
      decodeMessage raw = .badSync) ∧
    (8 ≤ raw.length → byteAt raw 0 = 0x51 → byteAt raw 1 = 0x78 →
      raw.length < 8 + (byteAt raw 4).toNat + 256 * (byteAt raw 5).toNat →
      decodeMessage raw = .truncated) ∧
    (8 ≤ raw.length → byteAt raw 0 = 0x51 → byteAt raw 1 = 0x78 →
      8 + (byteAt raw 4).toNat + 256 * (byteAt raw 5).toNat ≤ raw.length →
      ∃ f, decodeMessage raw = .ok f)

/-- 42_enc.md R177, the functions: decoding an encoded frame gives its fields and its payload, with the
checksum valid. -/
def Obligations.DecodeOfEncodedFrame : Prop :=
  ∀ (c t : Byte) (p : List Byte), p.length ≤ 65535 →
    decodeMessage (encodeFrame c t p) =
      .ok { command := c, typeByte := t, payloadLength := BitVec.ofNat 16 p.length, payload := p,
            checksumReceived := crc8 p, checksumExpected := crc8 p, crcValid := true,
            endMarker := 0xFF }

/-- 43_dec.md R196: an accepted RX beat stores its byte by its position, counts it, and changes nothing
else. -/
def Obligations.RxBeatStoresByPosition : Prop :=
  ∀ (b : Byte) (s : State), s.res.pending = false →
    let i := s.work.cnt.toNat
    let len := s.work.hdr[4].toNat + 256 * s.work.hdr[5].toNat
    ∃ t, exec (.rxBeat b) s = .next t ∧
      t = { s with work := t.work, buf := t.buf } ∧
      t.work.cnt.toNat = min (i + 1) 131071 ∧
      (∀ (k : Nat) (h : k < 6), t.work.hdr[k] = if k = i then b else s.work.hdr[k]) ∧
      t.work.crc = (if 6 ≤ i ∧ i < 6 + len then crc8Step s.work.crc b else s.work.crc) ∧
      t.work.rxcrc = (if i = 6 + len then b else s.work.rxcrc) ∧
      t.work.endm = (if i = 7 + len then b else s.work.endm) ∧
      (¬ (6 ≤ i ∧ i < 6 + len) → t.buf = s.buf) ∧
      (6 ≤ i → i < 6 + len →
        memGet t.buf (i - 6) = some b ∧
        ∀ k, k ≠ i - 6 → memGet t.buf k = memGet s.buf k)

/-- 43_dec.md R195: a beat presented while a result is pending is not accepted; it waits, first in line,
and the turn changes nothing. -/
def Obligations.RxBeatWaitsWhilePending : Prop :=
  (∀ (b : Beat) (s : State), s.res.pending = true →
    exec (beatInstr b) s = .next { s with rxIn := b.word :: s.rxIn }) ∧
  (∀ (s : State) (turns : List Turn), s.res.pending = true → s.sched = .transport :: turns →
    step s = .next { s with sched := turns })

/-- 43_dec.md R197, R198, R199: an accepted beat with `last = 1` stores its byte as one with `last = 0`
does, latches the result and clears the working state. -/
def Obligations.LastBeatLatchesTheResult : Prop :=
  ∀ (b : Byte) (s : State), s.res.pending = false →
    ∃ u t : State, exec (.rxBeat b) s = .next u ∧ exec (.rxBeatLast b) s = .next t ∧
      let n := u.work.cnt.toNat
      let len := u.work.hdr[4].toNat + 256 * u.work.hdr[5].toNat
      let sync := u.work.hdr[0] = 0x51#8 ∧ u.work.hdr[1] = 0x78#8
      let status := u.work.hdr[2] = 0xA3#8 ∧ 3 ≤ len
      let error := fun (v : Verdict) =>
        ({ State.reset.res with pending := true, verdict := v } : DecResult)
      t = { u with work := State.reset.work, res := t.res } ∧
      (n < 8 → t.res = error .tooShort) ∧
      (8 ≤ n → ¬ sync → t.res = error .badSync) ∧
      (8 ≤ n → sync → n < 8 + len → t.res = error .truncated) ∧
      (8 ≤ n → sync → 8 + len ≤ n →
        t.res.pending = true ∧ t.res.verdict = .ok ∧ t.res.cmd = u.work.hdr[2] ∧
        t.res.typ = u.work.hdr[3] ∧ t.res.len.toNat = len ∧ t.res.crcrx = u.work.rxcrc ∧
        t.res.crcexp = u.work.crc ∧ t.res.endm = u.work.endm ∧
        (t.res.crcvalid = true ↔ u.work.crc = u.work.rxcrc) ∧ t.res.rp = 0 ∧
        (status →
          t.res.stvalid = true ∧ t.res.st0 = bufRead u 0 ∧ t.res.st1 = bufRead u 1 ∧
          t.res.st2 = bufRead u 2 ∧ t.res.paper = (bufRead u 0).getLsbD 0) ∧
        (¬ status →
          t.res.stvalid = false ∧ t.res.st0 = 0 ∧ t.res.st1 = 0 ∧ t.res.st2 = 0 ∧
          t.res.paper = false))

/-- 43_dec.md R200: DEC.PAY: its words, a pop, and OpError. -/
def Obligations.DecPayPopsTheNextByte : Prop :=
  (∀ imm : Byte, decodeOp (0x40#8 ++ imm) = .ok .decPay) ∧
  ∀ s : State,
    (s.res.pending = true → s.res.verdict = .ok → s.res.rp.toNat < s.res.len.toNat →
      exec .decPay s =
        .next { s with
          res := { s.res with rp := s.res.rp + 1 }
          rspOut := s.rspOut ++ [⟨false, bufRead s s.res.rp.toNat⟩] }) ∧
    (s.res.pending = false ∨ s.res.verdict ≠ .ok ∨ s.res.len.toNat ≤ s.res.rp.toNat →
      exec .decPay s = .next { s with rspOut := s.rspOut ++ [⟨true, 0x00⟩] })

/-- 43_dec.md R202: DEC.ACK: its words, the release (`buf` stays), and OpError. -/
def Obligations.DecAckReleasesTheResult : Prop :=
  (∀ imm : Byte, decodeOp (0x41#8 ++ imm) = .ok .decAck) ∧
  ∀ s : State,
    (s.res.pending = true →
      exec .decAck s =
        .next { s with res := State.reset.res, rspOut := s.rspOut ++ [⟨false, 0x00⟩] }) ∧
    (s.res.pending = false →
      exec .decAck s = .next { s with rspOut := s.rspOut ++ [⟨true, 0x00⟩] })

/-- 43_dec.md R207: the beats of any message, from an empty DEC, under any interleaving with host words
other than reset, leave exactly the result of `decode`, the payload in `buf` for as many DEC.PAY, and a
cleared working state. -/
def Obligations.MessageDecodedUnderAnyInterleaving : Prop :=
  ∀ (s : State) (raw : List Byte) (ops : List OpWord) (later : List BeatWord)
    (turns rest : List Turn),
    raw ≠ [] → s.res.pending = false → s.work = DecWork.reset →
    s.rxIn = (beatsOf raw).map Beat.word ++ later →
    s.hostIn = ops.map HostWord.op →
    s.sched = turns ++ .transport :: rest →
    Turn.rst ∉ turns → turns.count .transport + 1 = raw.length →
    ∃ t : State,
      Host.Core.run Sys2Proof.core (turns.length + 1) s = .next t ∧
      t.res = resultOf (decodeMessage raw) ∧ t.work = DecWork.reset ∧
      t.rxIn = later ∧ t.sched = rest ∧
      ∀ f, decodeMessage raw = .ok f →
        (∀ (k : Nat) (h : k < f.payload.length), memGet t.buf k = some f.payload[k]) ∧
        ∃ u : State, execAll (List.replicate f.payload.length .decPay) t = .next u ∧
          u.rspOut = t.rspOut ++ f.payload.map (fun b => ⟨false, b⟩)

/-- 30_encoding.md R104 and 43_dec.md R200, R207: `DEC.DRAIN` on a pending OK result answers every
payload byte not yet popped, in order, and releases the result. -/
def Obligations.DrainAnswersTheWholePayload : Prop :=
  ∀ (s : State) (payload : List Byte),
    s.res.pending = true → s.res.verdict = .ok → s.res.rp = 0 →
    payload.length = s.res.len.toNat →
    (∀ (k : Nat) (h : k < payload.length), memGet s.buf k = some payload[k]) →
    execAll (List.replicate payload.length .decPay ++ [.decAck]) s =
      .next { s with
        res := State.reset.res
        rspOut := s.rspOut ++ payload.map (fun b => ⟨false, b⟩) ++ [⟨false, 0x00⟩] }

/-- 42_enc.md R177, in block terms: the TX beats of a frame, fed to the RX stream of an idle DEC, latch
verdict OK with the frame's fields. -/
def Obligations.LoopBackRoundTrip : Prop :=
  ∀ (s : State) (c t : Byte) (p : List Byte),
    p.length ≤ 65535 → s.enc.busy = false → s.res.pending = false → s.work = DecWork.reset →
    ∃ u v : State,
      execAll (frameInstrs c t p) s = .next u ∧
      execAll ((u.txOut.drop s.txOut.length).map beatInstr) u = .next v ∧
      v.res.pending = true ∧ v.res.verdict = .ok ∧ v.res.cmd = c ∧ v.res.typ = t ∧
      v.res.len.toNat = p.length ∧ v.res.crcvalid = true ∧ v.res.crcrx = crc8 p ∧
      v.res.endm = 0xFF ∧
      ∀ (k : Nat) (h : k < p.length), memGet v.buf k = some p[k]

/-- 20_memory.md R71 (a): a pending result is held, unchanged but for `dec_rp`, with its payload, by
every step but the host's own DEC.ACK and reset. -/
def Obligations.PendingResultIsHeld : Prop :=
  ∀ s t : State, s.res.pending = true → step s = .next t → s.sched.head? ≠ some .rst →
    (t.res = State.reset.res ∧ t.buf = s.buf ∧
      ∃ w ws, s.sched.head? = some .host ∧ s.hostIn = .op w :: ws ∧ decodeOp w = .ok .decAck) ∨
    (t.buf = s.buf ∧ t.work = s.work ∧ t.rxIn = s.rxIn ∧
      t.res = { s.res with rp := t.res.rp } ∧ (t.res.rp = s.res.rp ∨ t.res.rp = s.res.rp + 1))

/-- 60_exceptions.md R275: `dec_irq` and DEC_VERDICT never disagree in a legal state. -/
def Obligations.IrqAgreesWithTheVerdict : Prop :=
  ∀ s : State, Inv s →
    (decIrq s = true ↔ ∃ v : Byte, readReg s 0x10 = some v ∧ v ≠ 0) ∧ rxReady s = !decIrq s

/-! ### The whole machine -/

/-- 60_exceptions.md R271, 20_memory.md R62: every operation gives exactly one response; it is an error
exactly for the causes of the table, and then nothing else changes. -/
def Obligations.OpErrorExactlyForItsCauses : Prop :=
  ∀ (i : Instr) (s : State), IsOperation i →
    ∃ (t : State) (r : Rsp),
      exec i s = .next t ∧ t.rspOut = s.rspOut ++ [r] ∧
      (r.err = true ↔ OpErrorCause i s) ∧
      (r.err = true → r.data = 0x00 ∧ t = { s with rspOut := s.rspOut ++ [⟨true, 0x00⟩] })

/-- 10_state.md R20, 43_dec.md R208: no operation of one unit changes the state of another: what each
group of instructions leaves unchanged, for every form. -/
def Obligations.UnitsDoNotDisturbOneAnother : Prop :=
  ∀ (i : Instr) (s t : State), exec i s = .next t →
    (i = .crcClr ∨ (∃ b, i = .crcUpd b) → t = { s with crc := t.crc, rspOut := t.rspOut }) ∧
    (i = .crcRd ∨ (∃ b, i = .rd b) ∨ (∃ b, i = .brev b) → t = { s with rspOut := t.rspOut }) ∧
    (isEncOp i = true → t = { s with enc := t.enc, txOut := t.txOut, rspOut := t.rspOut }) ∧
    (i = .decPay ∨ i = .decAck → t = { s with res := t.res, rspOut := t.rspOut }) ∧
    (i.format = .beat →
      t = { s with work := t.work, res := t.res, buf := t.buf, rxIn := t.rxIn }) ∧
    (i.format = .frame → t = { s with hostIn := t.hostIn })

/-- 20_memory.md R71 (c): CRC, BREV and ENC operations commute with every RX beat. -/
def Obligations.HostComputationCommutesWithRxBeats : Prop :=
  ∀ (i : Instr) (b : Beat) (s : State),
    (i = .crcClr ∨ (∃ x, i = .crcUpd x) ∨ i = .crcRd ∨ (∃ x, i = .brev x) ∨ isEncOp i = true) →
    ∃ u : State,
      execAll [i, beatInstr b] s = .next u ∧ execAll [beatInstr b, i] s = .next u

/-- 70_reset_and_hazards.md R320: every accepted instruction completes: every well-formed instruction
answers a next state, in every state. -/
def Obligations.EveryWellFormedInstructionCompletes : Prop :=
  ∀ i : Instr, WellFormed i → ∀ s : State, ∃ t : State, exec i s = .next t

/-- 10_state.md R40, R49: the invariant holds at reset. -/
def Obligations.InvariantHoldsAtReset : Prop := Inv State.reset ∧ FlagsInv State.reset

/-- 10_state.md R40: the invariants hold in every state reached after reset, whatever the host and the
transport present and in whatever order. -/
def Obligations.InvariantsHoldInEveryReachableState : Prop :=
  ∀ (hostIn : List HostWord) (rxIn : List BeatWord) (sched : List Turn) (k : Nat) (t : State),
    Host.Core.run Sys2Proof.core k
      { State.reset with hostIn := hostIn, rxIn := rxIn, sched := sched } = .next t →
    Inv t ∧ FlagsInv t

/-- 10_state.md R40 (a) to (g), and `buf`'s form and contents (R49): every step keeps the invariant. -/
def Obligations.EveryStepKeepsTheInvariant : Prop :=
  ∀ s t : State, Inv s → step s = .next t → Inv t

/-- 10_state.md R35, R36: every step keeps what DEC_FLAGS and DEC_ST0 to DEC_ST2 say. -/
def Obligations.EveryStepKeepsTheFlags : Prop :=
  ∀ s t : State, Inv s → FlagsInv s → step s = .next t → FlagsInv t

/-- 10_state.md R49: no rule reads an unspecified byte of `buf`: from a legal state a step does the same
whatever the unspecified bytes are (they are read at `bufEpoch`, log 3). -/
def Obligations.NoStepReadsAnUnspecifiedByte : Prop :=
  ∀ (s t : State) (epoch : Nat), Inv s → step s = .next t →
    ∃ t' : State, step { s with bufEpoch := epoch } = .next t' ∧
      { t' with bufEpoch := t.bufEpoch } = t
end

