-- ==== Sys2Proof/Laws/Codec.lean ====
section
/-! SUPPORT. The small lemmas of the pure functions: the CRC round, sequences of bytes, halves, bit
reversal, frames. -/

namespace Sys2Proof.Machine

/-! ### CRC -/

/-- The round with the bit the source tests: "if the top bit of the accumulator is set". -/
theorem crcRound_eq_topBit (a : Byte) :
    crcRound a = if a.getLsbD 7 then (a <<< 1) ^^^ 0x07#8 else a <<< 1 := by
  revert a; decide +kernel

/-- One round is linear: the shift is, and the conditional XOR follows the top bit. -/
theorem crcRound_xor (a b : Byte) : crcRound (a ^^^ b) = crcRound a ^^^ crcRound b := by
  rw [crcRound_eq_topBit, crcRound_eq_topBit a, crcRound_eq_topBit b, BitVec.getLsbD_xor,
    BitVec.shiftLeft_xor_distrib]
  have cancel : ∀ x y p : Byte, x ^^^ y = (x ^^^ p) ^^^ (y ^^^ p) := fun x y p => by
    rw [BitVec.xor_comm y p, ← BitVec.xor_assoc, BitVec.xor_assoc x p p, BitVec.xor_self,
      BitVec.xor_zero]
  cases a.getLsbD 7 <;> cases b.getLsbD 7 <;>
    simp only [Bool.xor_false, Bool.xor_true, Bool.not_true, Bool.not_false, if_true,
      Bool.false_eq_true, if_false]
  · ac_rfl
  · ac_rfl
  · exact cancel _ _ _

theorem crcRounds_xor (n : Nat) (a b : Byte) :
    crcRounds n (a ^^^ b) = crcRounds n a ^^^ crcRounds n b := by
  induction n generalizing a b with
  | zero => rfl
  | succ n ih => simp only [crcRounds, crcRound_xor, ih]

@[simp] theorem crcRounds_zero_byte (n : Nat) : crcRounds n 0x00#8 = 0x00#8 := by
  induction n with
  | zero => rfl
  | succ n ih => rw [crcRounds, show crcRound 0x00#8 = 0x00#8 from by decide, ih]

@[simp] theorem crc8Step_self (a : Byte) : crc8Step a a = 0x00#8 := by simp [crc8Step]

@[simp] theorem crc8_nil : crc8 [] = 0x00#8 := rfl

theorem crc8From_append (c : Byte) (s t : List Byte) :
    crc8From c (s ++ t) = crc8From (crc8From c s) t := List.foldl_append

theorem crc8_append_singleton (s : List Byte) (b : Byte) :
    crc8 (s ++ [b]) = crc8Step (crc8 s) b := by
  simp [crc8, crc8From]

/-! ### Halves and reversal -/

theorem half_toNat (lo hi : Byte) : (half lo hi).toNat = lo.toNat + 256 * hi.toNat := by
  have := lo.isLt
  simp only [half, BitVec.toNat_append]
  rw [← Nat.shiftLeft_add_eq_or_of_lt this, Nat.shiftLeft_eq]; omega

theorem lowByte_toNat (h : Half) : (lowByte h).toNat = h.toNat % 256 := by
  simp [lowByte, BitVec.extractLsb'_toNat]

theorem highByte_toNat (h : Half) : (highByte h).toNat = h.toNat / 256 := by
  have := h.isLt
  simp only [highByte, BitVec.extractLsb'_toNat, Nat.shiftRight_eq_div_pow]; omega

@[simp] theorem lowByte_half (lo hi : Byte) : lowByte (half lo hi) = lo := by
  apply BitVec.eq_of_toNat_eq
  have := lo.isLt
  rw [lowByte_toNat, half_toNat]; omega

@[simp] theorem highByte_half (lo hi : Byte) : highByte (half lo hi) = hi := by
  apply BitVec.eq_of_toNat_eq
  have := lo.isLt
  rw [highByte_toNat, half_toNat]; omega

@[simp] theorem half_low_high (h : Half) : half (lowByte h) (highByte h) = h := by
  apply BitVec.eq_of_toNat_eq
  rw [half_toNat, lowByte_toNat, highByte_toNat]; omega

@[simp] theorem rev8_rev8 (b : Byte) : rev8 (rev8 b) = b := by revert b; decide +kernel

@[simp] theorem map_rev8_map_rev8 (s : List Byte) : (s.map rev8).map rev8 = s := by
  induction s <;> simp_all

/-! ### Beats and frames -/

theorem beatsOf_append_singleton (s : List Byte) (b : Byte) :
    beatsOf (s ++ [b]) = openBeats s ++ [⟨b, true⟩] := by
  induction s with
  | nil => rfl
  | cons a s ih =>
    cases s with
    | nil => rfl
    | cons c s => simpa [beatsOf, openBeats] using ih

@[simp] theorem beatsOf_length (s : List Byte) : (beatsOf s).length = s.length := by
  rcases List.eq_nil_or_concat s with h | ⟨t, b, h⟩
  · simp [h, beatsOf]
  · simp [h, beatsOf_append_singleton, openBeats]

/-- The checksum byte of a frame is `crc8` of its payload, also when it is empty (90_conflicts.md C5). -/
theorem frame_checksum (p : List Byte) : (if p = [] then 0x00#8 else crc8 p) = crc8 p := by
  split <;> simp_all

theorem encodeFrame_eq (c t : Byte) (p : List Byte) :
    encodeFrame c t p =
      headerBytes c t (BitVec.ofNat 16 p.length) ++ p ++ [crc8 p, Config.endMarker] := by
  rw [encodeFrame, frame_checksum]

@[simp] theorem encodeFrame_length (c t : Byte) (p : List Byte) :
    (encodeFrame c t p).length = 8 + p.length := by
  simp [encodeFrame_eq, headerBytes]; omega

theorem beatsOf_encodeFrame (c t : Byte) (p : List Byte) :
    beatsOf (encodeFrame c t p) =
      openBeats (headerBytes c t (BitVec.ofNat 16 p.length) ++ p) ++ tailBeats (crc8 p) := by
  rw [encodeFrame_eq, show [crc8 p, Config.endMarker] = [crc8 p] ++ [Config.endMarker] from rfl,
    ← List.append_assoc, beatsOf_append_singleton]
  simp [openBeats, tailBeats]

end Sys2Proof.Machine
end

