-- ==== Sys2Proof/Laws/Decode.lean ====
section
/-! SUPPORT. The decoder on encoded words: the fields of an operation word, the opcode map one row at a
time, and what a decoded operation word can be. -/

namespace Sys2Proof

open Sys2Proof.Machine

@[simp] theorem opcodeOf_append (opcode imm : Byte) : opcodeOf (opcode ++ imm) = opcode :=
  highByte_half imm opcode

@[simp] theorem immOf_append (opcode imm : Byte) : immOf (opcode ++ imm) = imm :=
  lowByte_half imm opcode

/-- Every operation word is an opcode and an operand. -/
theorem opWord_surjective (w : OpWord) : ∃ opcode imm : Byte, w = opcode ++ imm :=
  ⟨highByte w, lowByte w, (half_low_high w).symm⟩

theorem decodeOp_rd (n : Byte) :
    decodeOp (0x01#8 ++ n) = .ok (if n = 0x00#8 then .crcRd else .rd n) := by
  unfold decodeOp; rw [opcodeOf_append, immOf_append]
  show (if n = 0x00#8 then _ else _) = _
  split <;> rfl

theorem decodeOp_crcClr (b : Byte) : decodeOp (0x10#8 ++ b) = .ok .crcClr := by
  unfold decodeOp; rw [opcodeOf_append]; rfl

theorem decodeOp_crcUpd (b : Byte) : decodeOp (0x11#8 ++ b) = .ok (.crcUpd b) := by
  unfold decodeOp; rw [opcodeOf_append, immOf_append]; rfl

theorem decodeOp_brev (b : Byte) : decodeOp (0x20#8 ++ b) = .ok (.brev b) := by
  unfold decodeOp; rw [opcodeOf_append, immOf_append]; rfl

theorem decodeOp_encCmd (b : Byte) : decodeOp (0x30#8 ++ b) = .ok (.encCmd b) := by
  unfold decodeOp; rw [opcodeOf_append, immOf_append]; rfl

theorem decodeOp_encType (b : Byte) : decodeOp (0x31#8 ++ b) = .ok (.encType b) := by
  unfold decodeOp; rw [opcodeOf_append, immOf_append]; rfl

theorem decodeOp_encLenl (b : Byte) : decodeOp (0x32#8 ++ b) = .ok (.encLenl b) := by
  unfold decodeOp; rw [opcodeOf_append, immOf_append]; rfl

theorem decodeOp_encLenh (b : Byte) : decodeOp (0x33#8 ++ b) = .ok (.encLenh b) := by
  unfold decodeOp; rw [opcodeOf_append, immOf_append]; rfl

theorem decodeOp_encStart (b : Byte) : decodeOp (0x34#8 ++ b) = .ok .encStart := by
  unfold decodeOp; rw [opcodeOf_append]; rfl

theorem decodeOp_encPut (b : Byte) : decodeOp (0x35#8 ++ b) = .ok (.encPut b) := by
  unfold decodeOp; rw [opcodeOf_append, immOf_append]; rfl

theorem decodeOp_encPutr (b : Byte) : decodeOp (0x36#8 ++ b) = .ok (.encPutr b) := by
  unfold decodeOp; rw [opcodeOf_append, immOf_append]; rfl

theorem decodeOp_decPay (b : Byte) : decodeOp (0x40#8 ++ b) = .ok .decPay := by
  unfold decodeOp; rw [opcodeOf_append]; rfl

theorem decodeOp_decAck (b : Byte) : decodeOp (0x41#8 ++ b) = .ok .decAck := by
  unfold decodeOp; rw [opcodeOf_append]; rfl

/-- The opcodes of the map (30_encoding.md R96). -/
def opcodes : List Byte :=
  [0x01#8, 0x10#8, 0x11#8, 0x20#8, 0x30#8, 0x31#8, 0x32#8, 0x33#8, 0x34#8, 0x35#8, 0x36#8, 0x40#8,
    0x41#8]

/-- Outside the map every word is rejected (30_encoding.md R98). -/
theorem decodeOp_illegal (opcode imm : Byte) (h : opcode ∉ opcodes) :
    decodeOp (opcode ++ imm) = .error .illegalOpcode := by
  unfold decodeOp
  rw [opcodeOf_append, immOf_append]
  split <;> first
    | rfl
    | (rename_i he
       exfalso
       revert he h
       revert opcode
       decide +kernel)

/-- An operation word decodes to an operation. -/
theorem decodeOp_format {w : OpWord} {i : Instr} (h : decodeOp w = .ok i) : i.format = .op := by
  unfold decodeOp at h
  split at h <;> first
    | (cases h; rfl)
    | (split at h <;> cases h <;> rfl)
    | cases h

/-- The only rejection of an operation word. -/
theorem decodeOp_error {w : OpWord} {why : DecodeReject} (h : decodeOp w = .error why) :
    why = .illegalOpcode := by
  unfold decodeOp at h
  split at h <;> first
    | (split at h <;> cases h)
    | (cases h; rfl)
    | cases h

end Sys2Proof
end

