-- ==== Sys2Proof/Laws/Memory.lean ====
section
/-! SUPPORT. The laws of the payload buffer: read after write, and the canonical form kept. -/

namespace Sys2Proof.Machine

@[simp] theorem memGet_memSet_same (m : Memory) (i : Nat) (b : Byte) :
    memGet (memSet m i b) i = some b := by
  induction m with
  | nil => simp [memSet, memGet]
  | cons c rest ih =>
    simp only [memSet]
    split
    · simp [memGet]
    · split
      · simp [memGet]
      · rename_i h1 h2
        simp [memGet, ih, Ne.symm h2]

theorem memGet_memSet_other (m : Memory) {i k : Nat} (b : Byte) (h : k ≠ i) :
    memGet (memSet m i b) k = memGet m k := by
  induction m with
  | nil => simp [memSet, memGet, h.symm]
  | cons c rest ih =>
    simp only [memSet]
    split
    · simp [memGet, h.symm]
    · split
      · rename_i h1 h2
        simp [memGet, h.symm, ← h2]
      · simp [memGet, ih]

/-- A write lists nothing but the old cells and the byte written. -/
theorem mem_memSet (m : Memory) (i : Nat) (b : Byte) (c : Host.Cell) (h : c ∈ memSet m i b) :
    c = (i, b) ∨ c ∈ m := by
  induction m with
  | nil => simpa [memSet] using h
  | cons d rest ih =>
    simp only [memSet] at h
    split at h
    · simpa using h
    · split at h
      · rcases List.mem_cons.1 h with h | h
        · exact .inl h
        · exact .inr (List.mem_cons_of_mem _ h)
      · rcases List.mem_cons.1 h with h | h
        · exact .inr (h ▸ List.mem_cons_self)
        · exact (ih h).imp id (List.mem_cons_of_mem _)

/-- A write inside the buffer keeps the canonical form. -/
theorem memSet_wf (m : Memory) (i : Nat) (b : Byte) (hi : i < Config.decBufBytes)
    (h : Memory.wf m) : Memory.wf (memSet m i b) := by
  refine ⟨?_, fun c hc => ?_⟩
  · have hp := h.1
    clear h hi
    induction m with
    | nil => simp [memSet]
    | cons d rest ih =>
      rw [List.pairwise_cons] at hp
      simp only [memSet]
      split
      · rename_i hlt
        refine List.pairwise_cons.2 ⟨fun c hc => ?_, List.pairwise_cons.2 hp⟩
        rcases List.mem_cons.1 hc with hc | hc
        · exact hc ▸ hlt
        · exact Nat.lt_trans hlt (hp.1 c hc)
      · split
        · rename_i heq
          exact List.pairwise_cons.2 ⟨fun c hc => heq ▸ hp.1 c hc, hp.2⟩
        · refine List.pairwise_cons.2 ⟨fun c hc => ?_, ih hp.2⟩
          rcases mem_memSet _ _ _ _ hc with hc | hc
          · subst hc; simp only; omega
          · exact hp.1 c hc
  · rcases mem_memSet _ _ _ _ hc with hc | hc
    · exact hc ▸ hi
    · exact h.2 c hc

theorem reset_buf_wf : Memory.wf State.reset.buf := by simp [State.reset, Memory.wf]

end Sys2Proof.Machine
end

