-- ==== Sys2Proof/Laws/State.lean ====
section
/-! SUPPORT. One lemma per field per update of State, each true by rfl and in the simp set, so that no
proof unfolds an update. -/

namespace Sys2Proof.Machine

/-! ### `respond` -/

@[simp] theorem respond_crc (r : Rsp) (s : State) : (respond r s).crc = s.crc := rfl
@[simp] theorem respond_enc (r : Rsp) (s : State) : (respond r s).enc = s.enc := rfl
@[simp] theorem respond_work (r : Rsp) (s : State) : (respond r s).work = s.work := rfl
@[simp] theorem respond_res (r : Rsp) (s : State) : (respond r s).res = s.res := rfl
@[simp] theorem respond_buf (r : Rsp) (s : State) : (respond r s).buf = s.buf := rfl
@[simp] theorem respond_bufEpoch (r : Rsp) (s : State) : (respond r s).bufEpoch = s.bufEpoch := rfl
@[simp] theorem respond_hostIn (r : Rsp) (s : State) : (respond r s).hostIn = s.hostIn := rfl
@[simp] theorem respond_rxIn (r : Rsp) (s : State) : (respond r s).rxIn = s.rxIn := rfl
@[simp] theorem respond_sched (r : Rsp) (s : State) : (respond r s).sched = s.sched := rfl
@[simp] theorem respond_txOut (r : Rsp) (s : State) : (respond r s).txOut = s.txOut := rfl
@[simp] theorem respond_rspOut (r : Rsp) (s : State) : (respond r s).rspOut = s.rspOut ++ [r] := rfl

/-! ### `respondOk` -/

@[simp] theorem respondOk_crc (d : Byte) (s : State) : (respondOk d s).crc = s.crc := rfl
@[simp] theorem respondOk_enc (d : Byte) (s : State) : (respondOk d s).enc = s.enc := rfl
@[simp] theorem respondOk_work (d : Byte) (s : State) : (respondOk d s).work = s.work := rfl
@[simp] theorem respondOk_res (d : Byte) (s : State) : (respondOk d s).res = s.res := rfl
@[simp] theorem respondOk_buf (d : Byte) (s : State) : (respondOk d s).buf = s.buf := rfl
@[simp] theorem respondOk_bufEpoch (d : Byte) (s : State) : (respondOk d s).bufEpoch = s.bufEpoch := rfl
@[simp] theorem respondOk_hostIn (d : Byte) (s : State) : (respondOk d s).hostIn = s.hostIn := rfl
@[simp] theorem respondOk_rxIn (d : Byte) (s : State) : (respondOk d s).rxIn = s.rxIn := rfl
@[simp] theorem respondOk_sched (d : Byte) (s : State) : (respondOk d s).sched = s.sched := rfl
@[simp] theorem respondOk_txOut (d : Byte) (s : State) : (respondOk d s).txOut = s.txOut := rfl
@[simp] theorem respondOk_rspOut (d : Byte) (s : State) : (respondOk d s).rspOut = s.rspOut ++ [⟨false, d⟩] := rfl

/-! ### `opError` -/

@[simp] theorem opError_crc (s : State) : (opError s).crc = s.crc := rfl
@[simp] theorem opError_enc (s : State) : (opError s).enc = s.enc := rfl
@[simp] theorem opError_work (s : State) : (opError s).work = s.work := rfl
@[simp] theorem opError_res (s : State) : (opError s).res = s.res := rfl
@[simp] theorem opError_buf (s : State) : (opError s).buf = s.buf := rfl
@[simp] theorem opError_bufEpoch (s : State) : (opError s).bufEpoch = s.bufEpoch := rfl
@[simp] theorem opError_hostIn (s : State) : (opError s).hostIn = s.hostIn := rfl
@[simp] theorem opError_rxIn (s : State) : (opError s).rxIn = s.rxIn := rfl
@[simp] theorem opError_sched (s : State) : (opError s).sched = s.sched := rfl
@[simp] theorem opError_txOut (s : State) : (opError s).txOut = s.txOut := rfl
@[simp] theorem opError_rspOut (s : State) : (opError s).rspOut = s.rspOut ++ [⟨true, 0x00⟩] := rfl

/-! ### `releaseResult` -/

@[simp] theorem releaseResult_crc (s : State) : (releaseResult s).crc = s.crc := rfl
@[simp] theorem releaseResult_enc (s : State) : (releaseResult s).enc = s.enc := rfl
@[simp] theorem releaseResult_work (s : State) : (releaseResult s).work = s.work := rfl
@[simp] theorem releaseResult_res (s : State) : (releaseResult s).res = DecResult.reset := rfl
@[simp] theorem releaseResult_buf (s : State) : (releaseResult s).buf = s.buf := rfl
@[simp] theorem releaseResult_bufEpoch (s : State) : (releaseResult s).bufEpoch = s.bufEpoch := rfl
@[simp] theorem releaseResult_hostIn (s : State) : (releaseResult s).hostIn = s.hostIn := rfl
@[simp] theorem releaseResult_rxIn (s : State) : (releaseResult s).rxIn = s.rxIn := rfl
@[simp] theorem releaseResult_sched (s : State) : (releaseResult s).sched = s.sched := rfl
@[simp] theorem releaseResult_txOut (s : State) : (releaseResult s).txOut = s.txOut := rfl
@[simp] theorem releaseResult_rspOut (s : State) : (releaseResult s).rspOut = s.rspOut := rfl

/-! ### `txEmit` -/

@[simp] theorem txEmit_crc (bs : List Beat) (s : State) : (txEmit bs s).crc = s.crc := rfl
@[simp] theorem txEmit_enc (bs : List Beat) (s : State) : (txEmit bs s).enc = s.enc := rfl
@[simp] theorem txEmit_work (bs : List Beat) (s : State) : (txEmit bs s).work = s.work := rfl
@[simp] theorem txEmit_res (bs : List Beat) (s : State) : (txEmit bs s).res = s.res := rfl
@[simp] theorem txEmit_buf (bs : List Beat) (s : State) : (txEmit bs s).buf = s.buf := rfl
@[simp] theorem txEmit_bufEpoch (bs : List Beat) (s : State) : (txEmit bs s).bufEpoch = s.bufEpoch := rfl
@[simp] theorem txEmit_hostIn (bs : List Beat) (s : State) : (txEmit bs s).hostIn = s.hostIn := rfl
@[simp] theorem txEmit_rxIn (bs : List Beat) (s : State) : (txEmit bs s).rxIn = s.rxIn := rfl
@[simp] theorem txEmit_sched (bs : List Beat) (s : State) : (txEmit bs s).sched = s.sched := rfl
@[simp] theorem txEmit_txOut (bs : List Beat) (s : State) : (txEmit bs s).txOut = s.txOut ++ bs := rfl
@[simp] theorem txEmit_rspOut (bs : List Beat) (s : State) : (txEmit bs s).rspOut = s.rspOut := rfl

/-! ### `bufWrite` -/

@[simp] theorem bufWrite_crc (i : Nat) (b : Byte) (s : State) : (bufWrite i b s).crc = s.crc := rfl
@[simp] theorem bufWrite_enc (i : Nat) (b : Byte) (s : State) : (bufWrite i b s).enc = s.enc := rfl
@[simp] theorem bufWrite_work (i : Nat) (b : Byte) (s : State) : (bufWrite i b s).work = s.work := rfl
@[simp] theorem bufWrite_res (i : Nat) (b : Byte) (s : State) : (bufWrite i b s).res = s.res := rfl
@[simp] theorem bufWrite_buf (i : Nat) (b : Byte) (s : State) : (bufWrite i b s).buf = memSet s.buf i b := rfl
@[simp] theorem bufWrite_bufEpoch (i : Nat) (b : Byte) (s : State) : (bufWrite i b s).bufEpoch = s.bufEpoch := rfl
@[simp] theorem bufWrite_hostIn (i : Nat) (b : Byte) (s : State) : (bufWrite i b s).hostIn = s.hostIn := rfl
@[simp] theorem bufWrite_rxIn (i : Nat) (b : Byte) (s : State) : (bufWrite i b s).rxIn = s.rxIn := rfl
@[simp] theorem bufWrite_sched (i : Nat) (b : Byte) (s : State) : (bufWrite i b s).sched = s.sched := rfl
@[simp] theorem bufWrite_txOut (i : Nat) (b : Byte) (s : State) : (bufWrite i b s).txOut = s.txOut := rfl
@[simp] theorem bufWrite_rspOut (i : Nat) (b : Byte) (s : State) : (bufWrite i b s).rspOut = s.rspOut := rfl

/-! ### `presentOps` -/

@[simp] theorem presentOps_crc (ws : List OpWord) (s : State) : (presentOps ws s).crc = s.crc := rfl
@[simp] theorem presentOps_enc (ws : List OpWord) (s : State) : (presentOps ws s).enc = s.enc := rfl
@[simp] theorem presentOps_work (ws : List OpWord) (s : State) : (presentOps ws s).work = s.work := rfl
@[simp] theorem presentOps_res (ws : List OpWord) (s : State) : (presentOps ws s).res = s.res := rfl
@[simp] theorem presentOps_buf (ws : List OpWord) (s : State) : (presentOps ws s).buf = s.buf := rfl
@[simp] theorem presentOps_bufEpoch (ws : List OpWord) (s : State) : (presentOps ws s).bufEpoch = s.bufEpoch := rfl
@[simp] theorem presentOps_hostIn (ws : List OpWord) (s : State) : (presentOps ws s).hostIn = ws.map HostWord.op ++ s.hostIn := rfl
@[simp] theorem presentOps_rxIn (ws : List OpWord) (s : State) : (presentOps ws s).rxIn = s.rxIn := rfl
@[simp] theorem presentOps_sched (ws : List OpWord) (s : State) : (presentOps ws s).sched = s.sched := rfl
@[simp] theorem presentOps_txOut (ws : List OpWord) (s : State) : (presentOps ws s).txOut = s.txOut := rfl
@[simp] theorem presentOps_rspOut (ws : List OpWord) (s : State) : (presentOps ws s).rspOut = s.rspOut := rfl

/-! ### `holdBeat` -/

@[simp] theorem holdBeat_crc (b : Beat) (s : State) : (holdBeat b s).crc = s.crc := rfl
@[simp] theorem holdBeat_enc (b : Beat) (s : State) : (holdBeat b s).enc = s.enc := rfl
@[simp] theorem holdBeat_work (b : Beat) (s : State) : (holdBeat b s).work = s.work := rfl
@[simp] theorem holdBeat_res (b : Beat) (s : State) : (holdBeat b s).res = s.res := rfl
@[simp] theorem holdBeat_buf (b : Beat) (s : State) : (holdBeat b s).buf = s.buf := rfl
@[simp] theorem holdBeat_bufEpoch (b : Beat) (s : State) : (holdBeat b s).bufEpoch = s.bufEpoch := rfl
@[simp] theorem holdBeat_hostIn (b : Beat) (s : State) : (holdBeat b s).hostIn = s.hostIn := rfl
@[simp] theorem holdBeat_rxIn (b : Beat) (s : State) : (holdBeat b s).rxIn = b.word :: s.rxIn := rfl
@[simp] theorem holdBeat_sched (b : Beat) (s : State) : (holdBeat b s).sched = s.sched := rfl
@[simp] theorem holdBeat_txOut (b : Beat) (s : State) : (holdBeat b s).txOut = s.txOut := rfl
@[simp] theorem holdBeat_rspOut (b : Beat) (s : State) : (holdBeat b s).rspOut = s.rspOut := rfl

/-! ### `resetBlock` -/

@[simp] theorem resetBlock_crc (s : State) : (resetBlock s).crc = State.reset.crc := rfl
@[simp] theorem resetBlock_enc (s : State) : (resetBlock s).enc = EncState.reset := rfl
@[simp] theorem resetBlock_work (s : State) : (resetBlock s).work = DecWork.reset := rfl
@[simp] theorem resetBlock_res (s : State) : (resetBlock s).res = DecResult.reset := rfl
@[simp] theorem resetBlock_buf (s : State) : (resetBlock s).buf = [] := rfl
@[simp] theorem resetBlock_bufEpoch (s : State) : (resetBlock s).bufEpoch = s.bufEpoch + 1 := rfl
@[simp] theorem resetBlock_hostIn (s : State) : (resetBlock s).hostIn = s.hostIn := rfl
@[simp] theorem resetBlock_rxIn (s : State) : (resetBlock s).rxIn = s.rxIn := rfl
@[simp] theorem resetBlock_sched (s : State) : (resetBlock s).sched = s.sched := rfl
@[simp] theorem resetBlock_txOut (s : State) : (resetBlock s).txOut = s.txOut := rfl
@[simp] theorem resetBlock_rspOut (s : State) : (resetBlock s).rspOut = s.rspOut := rfl

/-! ### `latch` -/

@[simp] theorem latch_crc (s : State) : (latch s).crc = s.crc := rfl
@[simp] theorem latch_enc (s : State) : (latch s).enc = s.enc := rfl
@[simp] theorem latch_work (s : State) : (latch s).work = DecWork.reset := rfl
@[simp] theorem latch_res (s : State) : (latch s).res = classify s := rfl
@[simp] theorem latch_buf (s : State) : (latch s).buf = s.buf := rfl
@[simp] theorem latch_bufEpoch (s : State) : (latch s).bufEpoch = s.bufEpoch := rfl
@[simp] theorem latch_hostIn (s : State) : (latch s).hostIn = s.hostIn := rfl
@[simp] theorem latch_rxIn (s : State) : (latch s).rxIn = s.rxIn := rfl
@[simp] theorem latch_sched (s : State) : (latch s).sched = s.sched := rfl
@[simp] theorem latch_txOut (s : State) : (latch s).txOut = s.txOut := rfl
@[simp] theorem latch_rspOut (s : State) : (latch s).rspOut = s.rspOut := rfl

end Sys2Proof.Machine
end

