-- ==== Sys2Proof/Laws/Ops.lean ====
section
/-! SUPPORT. What each shared operation can do, said once: the provers cite these instead of unfolding
the operations. -/

namespace Sys2Proof.Machine

variable {s : State}

/-! ### Register reads -/

/-- A register read is one response, and nothing else. -/
theorem respondReg_is_response (n : Byte) (s : State) :
    (∃ v, readReg s n = some v ∧ respondReg n s = respondOk v s) ∨
    (readReg s n = none ∧ respondReg n s = opError s) := by
  unfold respondReg
  cases readReg s n <;> simp

/-! ### ENC -/

theorem writeHeader_busy (e : EncState) (h : s.enc.busy = true) :
    writeHeader e s = opError s := by simp [writeHeader, h]

theorem writeHeader_idle (e : EncState) (h : s.enc.busy = false) :
    writeHeader e s = respondOk 0x00 { s with enc := e } := by simp [writeHeader, h]

theorem startFrame_busy (h : s.enc.busy = true) : startFrame s = opError s := by
  simp [startFrame, h]

/-- ENC.START with an empty payload: the whole frame. -/
theorem startFrame_empty (h : s.enc.busy = false) (hl : s.enc.len = 0) :
    startFrame s =
      { s with
        enc := { s.enc with crc := 0x00, rem := 0 }
        txOut := s.txOut ++ (openBeats (headerBytes s.enc.cmd s.enc.typ 0) ++ tailBeats 0x00)
        rspOut := s.rspOut ++ [⟨false, 0x00⟩] } := by
  simp [startFrame, h, hl, respondOk, respond, txEmit]

/-- ENC.START with payload bytes owed: the header, and ENC is busy. -/
theorem startFrame_open (h : s.enc.busy = false) (hl : ¬ s.enc.len = 0) :
    startFrame s =
      { s with
        enc := { s.enc with crc := 0x00, rem := s.enc.len, busy := true }
        txOut := s.txOut ++ openBeats (headerBytes s.enc.cmd s.enc.typ s.enc.len)
        rspOut := s.rspOut ++ [⟨false, 0x00⟩] } := by
  simp only [startFrame, h, Bool.false_eq_true, if_false, hl, respondOk, respond, txEmit]
  rfl

theorem putByte_idle (v : Byte) (h : s.enc.busy = false) : putByte v s = opError s := by
  simp [putByte, h]

theorem rem_pred_eq_zero (r : Half) : r - 1 = 0 ↔ r = 1 := by
  constructor
  · intro h; have := congrArg (· + 1#16) h; simpa using this
  · rintro rfl; rfl

/-- A payload byte with more to come. -/
theorem putByte_more (v : Byte) (h : s.enc.busy = true) (hr : s.enc.rem ≠ 1) :
    putByte v s =
      { s with
        enc := { s.enc with crc := crc8Step s.enc.crc v, rem := s.enc.rem - 1 }
        txOut := s.txOut ++ [⟨v, false⟩]
        rspOut := s.rspOut ++ [⟨false, v⟩] } := by
  have : ¬ s.enc.rem - 1 = 0 := fun e => hr ((rem_pred_eq_zero _).1 e)
  simp only [putByte, h, if_true, this, if_false, respondOk, respond, txEmit]

/-- The last payload byte owed: the checksum and the end marker follow, and ENC is idle. -/
theorem putByte_last (v : Byte) (h : s.enc.busy = true) (hr : s.enc.rem = 1) :
    putByte v s =
      { s with
        enc := { s.enc with crc := crc8Step s.enc.crc v, rem := 0, busy := false }
        txOut := s.txOut ++ ⟨v, false⟩ :: tailBeats (crc8Step s.enc.crc v)
        rspOut := s.rspOut ++ [⟨false, v⟩] } := by
  simp only [putByte, h, if_true, hr, respondOk, respond, txEmit,
    show (1 : Half) - 1 = 0 from rfl]

/-- Every ENC operation changes ENC, the TX stream and the responses only. -/
theorem enc_frame (e : EncState) (v : Byte) (s : State) :
    (∃ e' tx rsp, writeHeader e s = { s with enc := e', txOut := tx, rspOut := rsp }) ∧
    (∃ e' tx rsp, startFrame s = { s with enc := e', txOut := tx, rspOut := rsp }) ∧
    (∃ e' tx rsp, putByte v s = { s with enc := e', txOut := tx, rspOut := rsp }) := by
  refine ⟨?_, ?_, ?_⟩
  · cases h : s.enc.busy
    · exact ⟨_, _, _, writeHeader_idle e h⟩
    · exact ⟨_, _, _, writeHeader_busy e h⟩
  · cases h : s.enc.busy
    · by_cases hl : s.enc.len = 0
      · exact ⟨_, _, _, startFrame_empty h hl⟩
      · exact ⟨_, _, _, startFrame_open h hl⟩
    · exact ⟨_, _, _, startFrame_busy h⟩
  · cases h : s.enc.busy
    · exact ⟨_, _, _, putByte_idle v h⟩
    · by_cases hr : s.enc.rem = 1
      · exact ⟨_, _, _, putByte_last v h hr⟩
      · exact ⟨_, _, _, putByte_more v h hr⟩

/-! ### DEC -/

theorem workLen_toNat (w : DecWork) :
    (workLen w).toNat = w.hdr[4].toNat + 256 * w.hdr[5].toNat := half_toNat _ _

theorem workLen_lt (w : DecWork) : (workLen w).toNat < 65536 := (workLen w).isLt

/-- `w_cnt` counts up, and saturates. -/
theorem countUp_toNat (c : BitVec 17) : (countUp c).toNat = min (c.toNat + 1) 131071 := by
  simp only [countUp, BitVec.toNat_ofNat, Config.decCntMax]
  exact Nat.mod_eq_of_lt (by omega)

/-- Storing a byte changes the working state and `buf` only. -/
theorem storeByte_frame (b : Byte) (s : State) :
    storeByte b s = { s with work := (storeByte b s).work, buf := (storeByte b s).buf } := by
  simp only [storeByte, bufWrite]
  repeat' split
  all_goals rfl

/-- A byte is always counted. -/
theorem storeByte_cnt (b : Byte) (s : State) :
    (storeByte b s).work.cnt = countUp s.work.cnt := by
  simp only [storeByte, bufWrite]
  repeat' split
  all_goals rfl

/-- A header byte. -/
theorem storeByte_header (b : Byte) (h : s.work.cnt.toNat < 6) :
    storeByte b s =
      { s with work := { s.work with cnt := countUp s.work.cnt
                                     hdr := s.work.hdr.set s.work.cnt.toNat b h } } := by
  simp [storeByte, h]

/-- A payload byte. -/
theorem storeByte_payload (b : Byte) (h : 6 ≤ s.work.cnt.toNat)
    (h' : s.work.cnt.toNat < 6 + (workLen s.work).toNat) :
    storeByte b s =
      { s with work := { s.work with cnt := countUp s.work.cnt
                                     crc := crc8Step s.work.crc b }
               buf := memSet s.buf (s.work.cnt.toNat - 6) b } := by
  simp [storeByte, Nat.not_lt.2 h, h', bufWrite]

/-- The checksum byte. -/
theorem storeByte_checksum (b : Byte) (h : s.work.cnt.toNat = 6 + (workLen s.work).toNat) :
    storeByte b s =
      { s with work := { s.work with cnt := countUp s.work.cnt, rxcrc := b } } := by
  simp [storeByte, h]

/-- The end marker's place. -/
theorem storeByte_end (b : Byte) (h : s.work.cnt.toNat = 7 + (workLen s.work).toNat) :
    storeByte b s = { s with work := { s.work with cnt := countUp s.work.cnt, endm := b } } := by
  have h1 : ¬ s.work.cnt.toNat < 6 := by omega
  have h2 : ¬ s.work.cnt.toNat < 6 + (workLen s.work).toNat := by omega
  have h3 : ¬ s.work.cnt.toNat = 6 + (workLen s.work).toNat := by omega
  simp only [storeByte, dif_neg h1, if_neg h2, if_neg h3, if_pos h]

/-- A byte beyond the frame is dropped. -/
theorem storeByte_beyond (b : Byte) (h : 7 + (workLen s.work).toNat < s.work.cnt.toNat) :
    storeByte b s = { s with work := { s.work with cnt := countUp s.work.cnt } } := by
  have h1 : ¬ s.work.cnt.toNat < 6 := by omega
  have h2 : ¬ s.work.cnt.toNat < 6 + (workLen s.work).toNat := by omega
  have h3 : ¬ s.work.cnt.toNat = 6 + (workLen s.work).toNat := by omega
  have h4 : ¬ s.work.cnt.toNat = 7 + (workLen s.work).toNat := by omega
  simp only [storeByte, dif_neg h1, if_neg h2, if_neg h3, if_neg h4]

theorem takeBeat_pending (b : Beat) (h : s.res.pending = true) :
    takeBeat b s = holdBeat b s := by simp [takeBeat, h]

theorem takeBeat_accepted (b : Byte) (h : s.res.pending = false) :
    takeBeat ⟨b, false⟩ s = storeByte b s := by simp [takeBeat, h]

theorem takeBeat_last (b : Byte) (h : s.res.pending = false) :
    takeBeat ⟨b, true⟩ s = latch (storeByte b s) := by simp [takeBeat, h]

/-- The classification is an error verdict alone, or the OK result of a message that is long enough. -/
theorem classify_cases (s : State) :
    (∃ v, v ≠ Verdict.ok ∧ v ≠ Verdict.none ∧ classify s = errorResult v) ∨
    (8 + (workLen s.work).toNat ≤ s.work.cnt.toNat ∧ classify s = okResult s) := by
  unfold classify
  simp only
  split
  · exact .inl ⟨_, by decide, by decide, rfl⟩
  · split
    · exact .inl ⟨_, by decide, by decide, rfl⟩
    · split
      · exact .inl ⟨_, by decide, by decide, rfl⟩
      · rename_i h; exact .inr ⟨by simpa only [Config.minFrame, Nat.not_lt] using h, rfl⟩

/-- Every beat changes DEC's state, `buf` and the RX queue only. -/
theorem takeBeat_frame (b : Beat) (s : State) :
    takeBeat b s =
      { s with work := (takeBeat b s).work, res := (takeBeat b s).res, buf := (takeBeat b s).buf
               rxIn := (takeBeat b s).rxIn } := by
  unfold takeBeat
  split
  · rfl
  · split
    · rw [latch]; rw [storeByte_frame]
    · rw [storeByte_frame]

end Sys2Proof.Machine
end

