-- ==== Sys2Proof/Laws/PerInstr.lean ====
section
/-! SUPPORT. What holds of every instruction as syntax, one lemma per constructor: its encoding is in the
format of its row of spec/opcode_table.json (30_encoding.md R101). -/

namespace Sys2Proof.Laws.Encoding

/-- The encoding of an instruction has the format of its row. -/
def Statement (i : Instr) : Prop := (encode i).format = i.format

theorem rd (n : Byte) : Statement (.rd n) := rfl
theorem crcClr : Statement .crcClr := rfl
theorem crcUpd (b : Byte) : Statement (.crcUpd b) := rfl
theorem brev (b : Byte) : Statement (.brev b) := rfl
theorem encCmd (c : Byte) : Statement (.encCmd c) := rfl
theorem encType (t : Byte) : Statement (.encType t) := rfl
theorem encLenl (b : Byte) : Statement (.encLenl b) := rfl
theorem encLenh (b : Byte) : Statement (.encLenh b) := rfl
theorem encStart : Statement .encStart := rfl
theorem encPut (b : Byte) : Statement (.encPut b) := rfl
theorem encPutr (b : Byte) : Statement (.encPutr b) := rfl
theorem decPay : Statement .decPay := rfl
theorem decAck : Statement .decAck := rfl
theorem crcRd : Statement .crcRd := rfl
theorem rxBeat (b : Byte) : Statement (.rxBeat b) := rfl
theorem rxBeatLast (b : Byte) : Statement (.rxBeatLast b) := rfl
theorem retract (steps : Half) : Statement (.retract steps) := rfl
theorem feed (steps : Half) : Statement (.feed steps) := rfl
theorem printRow (row : List Byte) : Statement (.printRow row) := rfl
theorem getStatus : Statement .getStatus := rfl
theorem setDpi (dpi : Byte) : Statement (.setDpi dpi) := rfl
theorem getInfo : Statement .getInfo := rfl
theorem setEnergy (energy : Half) : Statement (.setEnergy energy) := rfl
theorem setSpeed (speed : Byte) : Statement (.setSpeed speed) := rfl
theorem applyEnergy : Statement .applyEnergy := rfl
theorem sendRaw (cmd : RawCode) (payload : List Byte) : Statement (.sendRaw cmd payload) := rfl

end Sys2Proof.Laws.Encoding
end

