-- ==== Sys2Proof/Laws/Step.lean ====
section
/-! SUPPORT. What an instruction and a step can do, said once. -/

namespace Sys2Proof.Machine

/-! ### Instructions -/

/-- The arms of the dispatch that a proof meets most, as equations (the meaning is not unfolded further,
since `crc8Step` of a variable unfolds into eight rounds). -/
theorem exec_crcUpd (b : Byte) (s : State) :
    exec (.crcUpd b) s =
      .next (respondOk (crc8Step s.crc b) { s with crc := crc8Step s.crc b }) := by
  simp only [exec, execCrcUpd]

theorem exec_encPut (b : Byte) (s : State) : exec (.encPut b) s = .next (putByte b s) := by
  simp only [exec, execEncPut]

theorem exec_encPutr (b : Byte) (s : State) : exec (.encPutr b) s = .next (putByte (rev8 b) s) := by
  simp only [exec, execEncPutr]

/-- PRINTROW with a payload that can be written. -/
theorem exec_printRow {row : List Byte} (h : row.length ≤ 65535) (s : State) :
    exec (.printRow row) s = .next (presentOps (framerWords 0xA2#8 0x00#8 row) s) := by
  simp only [exec, execPrintRow, expandFramer, Config.maxPayload, if_pos h, Config.cmdPrintRow,
    Config.typeDefault]

/-- SENDRAW with a payload that can be written. -/
theorem exec_sendRaw {p : List Byte} (h : p.length ≤ 65535) (cmd : RawCode) (s : State) :
    exec (.sendRaw cmd p) s = .next (presentOps (frameWords cmd.command cmd.typeByte p) s) := by
  simp only [exec, execSendRaw, expandFrame, Config.maxPayload, if_pos h]

/-- A wire command that answers a next state only puts words before what the host will present. -/
theorem exec_frame_format {i : Instr} {s t : State} (hf : i.format = .frame)
    (h : exec i s = .next t) : ∃ ws, t = presentOps ws s := by
  cases i <;> first | (simp [Instr.format] at hf; done) | skip
  all_goals
    simp only [exec, execRetract, execFeed, execGetStatus, execSetDpi, execGetInfo, execSetEnergy,
      execSetSpeed, execApplyEnergy, execPrintRow, execSendRaw, expandFrame, expandFramer] at h
  case printRow => split at h <;> first | exact ⟨_, (Host.Outcome.next.inj h).symm⟩ | cases h
  case sendRaw => split at h <;> first | exact ⟨_, (Host.Outcome.next.inj h).symm⟩ | cases h
  all_goals exact ⟨_, (Host.Outcome.next.inj h).symm⟩

/-- What an ENC operation does: one of the three shared operations. -/
theorem exec_enc_op {i : Instr} {s t : State} (hi : isEncOp i = true) (h : exec i s = .next t) :
    (∃ e, t = writeHeader e s ∧
      (s.enc.rem = e.rem ∧ s.enc.crc = e.crc ∧ s.enc.busy = e.busy)) ∨
    t = startFrame s ∨ ∃ v, t = putByte v s := by
  cases i <;> first | (simp [isEncOp] at hi; done) | skip
  all_goals
    simp only [exec, execEncCmd, execEncType, execEncLenl, execEncLenh, execEncStart, execEncPut,
      execEncPutr, Host.Outcome.next.injEq] at h
    subst h
  case encStart => exact .inr (.inl rfl)
  case encPut b => exact .inr (.inr ⟨_, rfl⟩)
  case encPutr b => exact .inr (.inr ⟨_, rfl⟩)
  all_goals exact .inl ⟨_, rfl, rfl, rfl, rfl⟩

/-- Everything DEC.PAY can do. -/
theorem exec_decPay_cases (s : State) :
    (s.res.pending = true ∧ s.res.verdict = .ok ∧ s.res.rp < s.res.len ∧
      exec .decPay s =
        .next (respondOk (bufRead s s.res.rp.toNat)
          { s with res := { s.res with rp := s.res.rp + 1 } })) ∨
    (¬ (s.res.pending = true ∧ s.res.verdict = .ok ∧ s.res.rp < s.res.len) ∧
      exec .decPay s = .next (opError s)) := by
  by_cases h : s.res.pending = true ∧ s.res.verdict = .ok ∧ s.res.rp < s.res.len
  · exact .inl ⟨h.1, h.2.1, h.2.2, by simp only [exec, execDecPay, if_pos h]⟩
  · exact .inr ⟨h, by simp only [exec, execDecPay, if_neg h]⟩

/-- Everything DEC.ACK can do. -/
theorem exec_decAck_cases (s : State) :
    (s.res.pending = true ∧ exec .decAck s = .next (respondOk 0x00 (releaseResult s))) ∨
    (s.res.pending = false ∧ exec .decAck s = .next (opError s)) := by
  cases h : s.res.pending
  · exact .inr ⟨rfl, by simp [exec, execDecAck, h]⟩
  · exact .inl ⟨rfl, by simp [exec, execDecAck, h]⟩

/-! ### Beats -/

/-- A beat's word decodes to the beat. -/
@[simp] theorem decodeBeat_word (b : Beat) : decodeBeat b.word = beatInstr b := by
  obtain ⟨d, l⟩ := b
  cases l <;> revert d <;> decide +kernel

/-- Every 9-bit word is a beat's. -/
theorem beatWord_surjective (w : BeatWord) :
    ∃ b : Beat, b.word = w := ⟨⟨w.extractLsb' 0 8, w.getLsbD 8⟩, by revert w; decide +kernel⟩

@[simp] theorem exec_beatInstr (b : Beat) (s : State) :
    exec (beatInstr b) s = .next (takeBeat b s) := by
  obtain ⟨d, l⟩ := b
  cases l <;> rfl

/-! ### The step -/

/-- Everything a step that answers a next state can be. -/
theorem step_cases {s t : State} (h : step s = .next t) :
    (s.sched = [] ∧ t = s) ∨
    (∃ turns, s.sched = .rst :: turns ∧ t = resetBlock { s with sched := turns }) ∨
    (∃ turns, s.sched = .host :: turns ∧ s.hostIn = [] ∧ t = { s with sched := turns }) ∨
    (∃ turns w ws i, s.sched = .host :: turns ∧ s.hostIn = w :: ws ∧ decodeHost w = .ok i ∧
      exec i { s with sched := turns, hostIn := ws } = .next t) ∨
    (∃ turns w ws why, s.sched = .host :: turns ∧ s.hostIn = .op w :: ws ∧
      decodeOp w = .error why ∧ t = opError { s with sched := turns, hostIn := ws }) ∨
    (∃ turns, s.sched = .transport :: turns ∧ s.rxIn = [] ∧ t = { s with sched := turns }) ∨
    (∃ turns b ws, s.sched = .transport :: turns ∧ s.rxIn = Beat.word b :: ws ∧
      t = takeBeat b { s with sched := turns, rxIn := ws }) := by
  unfold step fetch at h
  match hs : s.sched with
  | [] =>
    simp only [hs, Host.Outcome.next.injEq] at h
    exact .inl ⟨rfl, h.symm⟩
  | .rst :: turns =>
    simp only [hs, Host.Outcome.next.injEq] at h
    exact .inr (.inl ⟨turns, rfl, h.symm⟩)
  | .host :: turns =>
    match hh : s.hostIn with
    | [] =>
      simp only [hs, hh, Host.Outcome.next.injEq] at h
      exact .inr (.inr (.inl ⟨turns, rfl, rfl, by rw [← h, ← hh]⟩))
    | w :: ws =>
      cases hd : decodeHost w with
      | ok i =>
        simp only [hs, hh, fetchHost, hd] at h
        exact .inr (.inr (.inr (.inl ⟨turns, w, ws, i, rfl, rfl, hd, h⟩)))
      | error why =>
        cases w with
        | op w =>
          simp only [hs, hh, fetchHost, hd, Host.Outcome.next.injEq] at h
          exact .inr (.inr (.inr (.inr (.inl ⟨turns, w, ws, why, rfl, rfl, hd, h.symm⟩))))
        | frame bytes => simp [hs, hh, fetchHost, hd] at h
  | .transport :: turns =>
    match hr : s.rxIn with
    | [] =>
      simp only [hs, hr, Host.Outcome.next.injEq] at h
      exact .inr (.inr (.inr (.inr (.inr (.inl ⟨turns, rfl, rfl, by rw [← h, ← hr]⟩)))))
    | w :: ws =>
      obtain ⟨b, rfl⟩ := beatWord_surjective w
      simp only [hs, hr, decodeBeat_word, exec_beatInstr, Host.Outcome.next.injEq] at h
      exact .inr (.inr (.inr (.inr (.inr (.inr ⟨turns, b, ws, rfl, rfl, h.symm⟩)))))

end Sys2Proof.Machine
end

