-- ==== Sys2Proof/Tests/Slice0.lean ====
section
/-! SUPPORT. The model's own tests: ill-formed terms refused, words written out from the spec's encodings,
one-step tests with the expected values of 95_test_vectors.md, and for every obligation with hypotheses
a witness that meets them. -/

namespace Sys2Proof.Tests

open Sys2Proof Sys2Proof.Machine

/-! ### Small states, and how a test looks at an outcome -/

/-- What `f` says of the next state, if there is one. -/
def after {α : Type} (r : Result) (f : State → α) : Option α :=
  match r with
  | .next t => some (f t)
  | .fault _ => none
  | .refused _ => none

/-- The last response of the next state. -/
def answer (r : Result) : Option (Option Rsp) := after r (fun t => t.rspOut.getLast?)

/-- A good answer with its data. -/
def good (b : Byte) : Option (Option Rsp) := some (some ⟨false, b⟩)

/-- OpError. -/
def bad : Option (Option Rsp) := some (some ⟨true, 0x00⟩)

/-- The beats of a message (`RXMSG`), as instructions. -/
def rxMsg (raw : List Byte) : List Instr := (beatsOf raw).map beatInstr

/-- The registers `0x10` to `0x1D`, in order. -/
def decRegs (s : State) : List (Option Byte) :=
  [readReg s 0x10, readReg s 0x11, readReg s 0x12, readReg s 0x13, readReg s 0x14, readReg s 0x15,
    readReg s 0x16, readReg s 0x17, readReg s 0x18, readReg s 0x19, readReg s 0x1A,
    readReg s 0x1B, readReg s 0x1C, readReg s 0x1D]

/-- The registers after a message received from reset. -/
def decoded (raw : List Byte) : Option (List (Option Byte)) :=
  after (execAll (rxMsg raw) State.reset) decRegs

/-- What `RD 0x10` to `RD 0x1D` return. -/
def regs (vs : List Byte) : Option (List (Option Byte)) := some (vs.map some)

/-- An error verdict: every other register reads `0x00` (43_dec.md R199). -/
def verdictOnly (v : Byte) : Option (List (Option Byte)) := regs (v :: List.replicate 13 0x00)

/-- V-ENC-20 after step 3: a frame of three bytes in progress. -/
def busy : State :=
  { State.reset with
    enc := { cmd := 0xA2, typ := 0x00, len := 3, rem := 3, crc := 0x00, busy := true }
    txOut := openBeats [0x51, 0x78, 0xA2, 0x00, 0x03, 0x00] }

/-- V-ENC-20 after step 15: one byte owed. -/
def busyLast : State :=
  { State.reset with
    enc := { cmd := 0xA2, typ := 0x00, len := 3, rem := 1, crc := 0xD1, busy := true }
    txOut := openBeats [0x51, 0x78, 0xA2, 0x00, 0x03, 0x00, 0xCA, 0x53] }

/-- After V-DEC-1: the status notification of S8 is pending. -/
def pendingOk : State :=
  { State.reset with
    res := { pending := true, verdict := .ok, cmd := 0xA3, typ := 0x00, len := 3, crcrx := 0x70,
             crcexp := 0x70, endm := 0xFF, crcvalid := true, stvalid := true, paper := true,
             st0 := 0x01, st1 := 0x00, st2 := 0x05, rp := 0 }
    buf := [(0, 0x01), (1, 0x00), (2, 0x05)] }

/-- After V-DEC-4: TOO_SHORT is pending. -/
def pendingShort : State :=
  { State.reset with res := { DecResult.reset with pending := true, verdict := .tooShort } }

/-- A message in reception: `cnt` bytes accepted, the header complete, `L = 3`. -/
def receiving (cnt : Nat) : State :=
  { State.reset with
    work := { cnt := BitVec.ofNat 17 cnt, hdr := #v[0x51, 0x78, 0xA3, 0x00, 0x03, 0x00],
              crc := 0x00, rxcrc := 0x00, endm := 0x00 } }

/-! ### WellFormed: the one check, on both sides of its boundary -/

theorem test_wf_printRow (row : List Byte) :
    (row.length = 65536 → ¬ WellFormed (.printRow row)) ∧
    (row.length = 65535 → WellFormed (.printRow row)) := by
  constructor <;> intro h <;> simp [WellFormed, Instr.wf, h]

theorem test_wf_sendRaw (cmd : RawCode) (payload : List Byte) :
    (payload.length = 65536 → ¬ WellFormed (.sendRaw cmd payload)) ∧
    (payload.length = 65535 → WellFormed (.sendRaw cmd payload)) := by
  constructor <;> intro h <;> simp [WellFormed, Instr.wf, h]

/-! ### Decoding: words written out from 30_encoding.md R91, R93, R94, R96, R102 -/

theorem test_decode_rd_crc_brev :
    decodeOp 0b0000000100010000 = .ok (.rd 0x10) ∧ decodeOp 0b0000000100000000 = .ok .crcRd ∧
    decodeOp 0b0001000010101011 = .ok .crcClr ∧
    decodeOp 0b0001000100100000 = .ok (.crcUpd 0x20) ∧
    decodeOp 0b0010000011001010 = .ok (.brev 0xCA) := by decide

theorem test_decode_enc :
    decodeOp 0b0011000010100001 = .ok (.encCmd 0xA1) ∧
    decodeOp 0b0011000100000111 = .ok (.encType 0x07) ∧
    decodeOp 0b0011001000000010 = .ok (.encLenl 0x02) ∧
    decodeOp 0b0011001100000001 = .ok (.encLenh 0x01) ∧
    decodeOp 0b0011010000000000 = .ok .encStart ∧
    decodeOp 0b0011010111001010 = .ok (.encPut 0xCA) ∧
    decodeOp 0b0011011010000000 = .ok (.encPutr 0x80) := by decide

theorem test_decode_dec :
    decodeOp 0b0100000011111111 = .ok .decPay ∧ decodeOp 0b0100000100000000 = .ok .decAck ∧
    decode (.rx 0b011011101) = .ok (.rxBeat 0xDD) ∧
    decode (.rx 0b111011101) = .ok (.rxBeatLast 0xDD) := by decide

/-- The wire commands with a 16-bit operand: S7 (V-MAC-1), V-MAC-2 (the low byte first), V-MAC-3 and
V-MAC-11. -/
theorem test_decode_frames_16 :
    decodeFrame [0x51, 0x78, 0xA1, 0x00, 0x02, 0x00, 0x20, 0x00, 0xAE, 0xFF] = .ok (.feed 0x20) ∧
    decodeFrame [0x51, 0x78, 0xA1, 0x00, 0x02, 0x00, 0x00, 0x01, 0x07, 0xFF] = .ok (.feed 0x100) ∧
    decodeFrame [0x51, 0x78, 0xA0, 0x00, 0x02, 0x00, 0x10, 0x00, 0x57, 0xFF] = .ok (.retract 16) ∧
    decodeFrame [0x51, 0x78, 0xAF, 0x00, 0x02, 0x00, 0xE8, 0x03, 0xE2, 0xFF] =
      .ok (.setEnergy 1000) := by decide +kernel

/-- The others: S9 (V-MAC-4), V-MAC-6 to V-MAC-10, V-ENC-11 (sync and end-marker values in a
payload). -/
theorem test_decode_frames_other :
    decodeFrame [0x51, 0x78, 0xA2, 0x00, 0x01, 0x00, 0x01, 0x07, 0xFF] = .ok (.printRow [0x80]) ∧
    decodeFrame [0x51, 0x78, 0xBE, 0x00, 0x01, 0x00, 0x01, 0x07, 0xFF] = .ok .applyEnergy ∧
    decodeFrame [0x51, 0x78, 0xA3, 0x00, 0x00, 0x00, 0x00, 0xFF] = .ok .getStatus ∧
    decodeFrame [0x51, 0x78, 0xA8, 0x00, 0x00, 0x00, 0x00, 0xFF] = .ok .getInfo ∧
    decodeFrame [0x51, 0x78, 0xA4, 0x00, 0x01, 0x00, 0xCB, 0x7F, 0xFF] = .ok (.setDpi 0xCB) ∧
    decodeFrame [0x51, 0x78, 0xBD, 0x00, 0x01, 0x00, 0x08, 0x38, 0xFF] = .ok (.setSpeed 8) ∧
    decodeFrame [0x51, 0x78, 0x01, 0x00, 0x04, 0x00, 0x51, 0x78, 0xFF, 0xFF, 0xF8, 0xFF] =
      .ok (.sendRaw { command := 0x01 } [0x51, 0x78, 0xFF, 0xFF]) := by decide +kernel

/-- V-ENC-7: SENDRAW's row leaves the type byte free (30_encoding.md R101); a defined code with another
type byte than `0x00` fits no other row. -/
theorem test_decode_frames_type :
    decodeFrame [0x51, 0x78, 0xA8, 0x07, 0x00, 0x00, 0x00, 0xFF] = .ok (.sendRaw ⟨0xA8, 0x07⟩ []) ∧
    encode (.sendRaw ⟨0xA8, 0x07⟩ []) =
      .host (.frame [0x51, 0x78, 0xA8, 0x07, 0x00, 0x00, 0x00, 0xFF]) := by decide +kernel

/-- V-ERR-1 to V-ERR-3. -/
theorem test_decode_illegal_opcodes :
    [0x0000#16, 0xFFFF, 0x0200, 0x1200, 0x2100, 0x3700, 0x4200].map decodeOp =
      List.replicate 7 (.error .illegalOpcode) := by decide +kernel

/-- Each rejection of a byte string, by name (V-DEC-4, V-DEC-5, V-DEC-9, V-DEC-15). -/
theorem test_decode_frame_rejections :
    decodeFrame [0x51, 0x78, 0xA3, 0x00, 0x00, 0x00, 0x00] = .error .frameTooShort ∧
    decodeFrame [0x51, 0x79, 0xA3, 0x00, 0x00, 0x00, 0x00, 0xFF] = .error .frameBadSync ∧
    decodeFrame [0x51, 0x78, 0xA3, 0x00, 0x01, 0x00, 0x07, 0xFF] = .error .frameTruncated ∧
    decodeFrame [0x51, 0x78, 0xA3, 0x00, 0x00, 0x00, 0x00, 0xFF, 0x00] =
      .error .frameTrailingBytes ∧
    decodeFrame [0x51, 0x78, 0xA3, 0x00, 0x00, 0x00, 0x01, 0xFF] = .error .frameChecksum ∧
    decodeFrame [0x51, 0x78, 0xA3, 0x00, 0x00, 0x00, 0x00, 0x00] = .error .frameEndMarker := by
  decide +kernel

/-- The words of spec/opcode_table.json, as the host numbers them (log 6). -/
theorem test_table_words :
    decodeTableWord 16 0x3520 = some (.encPut 0x20) ∧
    decodeTableWord 16 0x0042 = some (.rxBeat 0x42) ∧
    decodeTableWord 9 0x142 = some (.rxBeatLast 0x42) ∧
    decodeTableWord 32 0x5178A100 = some (.feed 0) ∧
    decodeTableWord 32 0x5178BE00 = some .applyEnergy ∧
    decodeTableWord 32 0x51784200 = some (.sendRaw { command := 0x42 } []) ∧
    decodeTableWord 32 0x51784207 = some (.sendRaw ⟨0x42, 0x07⟩ []) ∧
    decodeTableWord 32 0x5178A107 = some (.sendRaw ⟨0xA1, 0x07⟩ []) := by decide +kernel

theorem test_withFetchWord_runs :
    answer (step (State.reset.withFetchWord 16 0x2080)) = good 0x01 ∧
    after (step (State.reset.withFetchWord 9 0x042)) (fun t => t.work.cnt) = some 1 ∧
    after (step (State.reset.withFetchWord 32 0x5178A300)) (fun t => t.hostIn.length) =
      some 5 := by decide +kernel

/-! ### One-step tests, with the values of 95_test_vectors.md -/

/-- V-CRC-3, V-CRC-4 and V-CRC-5, the step on a zero accumulator. -/
theorem test_crc8Step : crc8Step 0x00 0x01 = 0x07 ∧ crc8Step 0x00 0x80 = 0x89 ∧
    crc8Step 0x00 0xFF = 0xF3 := by decide
/-- V-CRC-12: "123456789". -/
theorem test_crc8_check :
    crc8 [0x31, 0x32, 0x33, 0x34, 0x35, 0x36, 0x37, 0x38, 0x39] = 0xF4 := by decide +kernel
/-- V-CRC-33. -/
theorem test_crcClr :
    after (exec .crcClr { State.reset with crc := 0xAE }) (fun t => (t.crc, t.rspOut)) =
      some (0x00, [⟨false, 0x00⟩]) := by decide
/-- V-CRC-35: the computation goes on from `0xAE`. -/
theorem test_crcUpd :
    after (exec (.crcUpd 0x01) { State.reset with crc := 0xAE }) (fun t => (t.crc, t.rspOut)) =
      some (0x44, [⟨false, 0x44⟩]) := by decide
/-- V-CRC-32. -/
theorem test_crcRd : answer (exec .crcRd { State.reset with crc := 0xAE }) = good 0xAE := by decide
/-- V-BREV-2 (S4). -/
theorem test_brev : answer (exec (.brev 0xCA) State.reset) = good 0x53 := by decide
/-- V-ENC-20 steps 9 to 11. -/
theorem test_rd :
    answer (exec (.rd 0x01) busy) = good 0xA2 ∧ answer (exec (.rd 0x08) busy) = good 0x01 ∧
    answer (exec (.rd 0x05) busy) = good 0x03 := by decide
/-- V-RD-3. -/
theorem test_rd_unimplemented :
    [0x09#8, 0x0F, 0x1E, 0xFF].map (fun n => answer (exec (.rd n) State.reset)) =
      List.replicate 4 bad := by decide
/-- V-ENC-20 step 1, and step 4 (the header is locked). -/
theorem test_encCmd :
    after (exec (.encCmd 0xA2) State.reset) (fun t => t.enc.cmd) = some 0xA2 ∧
    after (exec (.encCmd 0xA1) busy) (fun t => (t.enc.cmd, t.rspOut)) =
      some (0xA2, [⟨true, 0x00⟩]) := by decide
theorem test_encType :
    after (exec (.encType 0x07) State.reset) (fun t => t.enc.typ) = some 0x07 ∧
    answer (exec (.encType 0x00) busy) = bad := by decide
/-- The halves of `enc_len` are independent (42_enc.md R165, R167). -/
theorem test_encLen_halves :
    after (execAll [.encLenh 0x12, .encLenl 0x34] State.reset) (fun t => t.enc.len) =
      some 0x1234 ∧
    after (execAll [.encLenl 0x34, .encLenh 0x12] State.reset) (fun t => t.enc.len) =
      some 0x1234 := by decide
/-- V-ENC-20 step 3. -/
theorem test_encStart :
    after (execAll [.encCmd 0xA2, .encLenl 0x03, .encStart] State.reset)
      (fun t => (t.txOut, t.enc.busy, t.enc.rem)) =
      some (openBeats [0x51, 0x78, 0xA2, 0x00, 0x03, 0x00], true, 3) := by decide
/-- V-ENC-6: ENC.START from reset is a whole frame. -/
theorem test_encStart_empty :
    after (exec .encStart State.reset) (fun t => (t.txOut, t.enc.busy)) =
      some (beatsOf [0x51, 0x78, 0x00, 0x00, 0x00, 0x00, 0x00, 0xFF], false) := by decide
/-- V-ENC-20 step 12. -/
theorem test_encPut :
    after (exec (.encPut 0xCA) busy) (fun t => (t.enc.rem, t.enc.crc, t.rspOut)) =
      some (2, 0x78, [⟨false, 0xCA⟩]) := by decide
/-- V-ENC-20 step 16: the last byte. -/
theorem test_encPut_last :
    after (exec (.encPut 0x0F) busyLast) (fun t => (t.txOut.drop 8, t.enc.busy, t.enc.crc)) =
      some ([⟨0x0F, false⟩, ⟨0x14, false⟩, ⟨0xFF, true⟩], false, 0x14) := by decide
/-- V-ENC-20 step 15, and step 19 (refused when idle). -/
theorem test_encPutr :
    after (exec (.encPutr 0xCA) { busy with enc := { busy.enc with rem := 2, crc := 0x78 } })
      (fun t => (t.enc.crc, t.rspOut)) = some (0xD1, [⟨false, 0x53⟩]) ∧
    answer (exec (.encPutr 0x00) State.reset) = bad := by decide
/-- V-DEC-30. -/
theorem test_decPay :
    answer (exec .decPay pendingOk) = good 0x01 ∧
    answer (exec .decPay { pendingOk with res := { pendingOk.res with rp := 2 } }) = good 0x05 ∧
    answer (exec .decPay { pendingOk with res := { pendingOk.res with rp := 3 } }) = bad := by decide
/-- V-DEC-30, V-DEC-31. -/
theorem test_decAck :
    after (exec .decAck pendingOk) (fun t => (t.res, t.buf == pendingOk.buf)) =
      some (DecResult.reset, true) ∧
    answer (exec .decAck State.reset) = bad := by decide
/-- V-DEC-36, the seventh beat. -/
theorem test_rxBeat :
    after (exec (.rxBeat 0x20) (receiving 6)) (fun t => (t.work.cnt, t.work.crc, t.buf)) =
      some (7, 0xE0, [(0, 0x20)]) := by decide

/-! Messages (43_dec.md R196 to R199). -/

/-- V-DEC-1 (S8). -/
theorem test_message_status :
    decoded [0x51, 0x78, 0xA3, 0x00, 0x03, 0x00, 0x01, 0x00, 0x05, 0x70, 0xFF] =
      regs [0x01, 0xA3, 0x00, 0x03, 0x00, 0x70, 0x70, 0xFF, 0x07, 0x01, 0x00, 0x05, 0x00, 0x00] := by
  decide +kernel
/-- V-DEC-14: a checksum mismatch is delivered. -/
theorem test_message_checksum_mismatch :
    decoded [0x51, 0x78, 0xA3, 0x00, 0x03, 0x00, 0x01, 0x00, 0x05, 0x8F, 0xFF] =
      regs [0x01, 0xA3, 0x00, 0x03, 0x00, 0x8F, 0x70, 0xFF, 0x06, 0x01, 0x00, 0x05, 0x00, 0x00] := by
  decide +kernel
/-- V-DEC-18: bytes after the frame are ignored. -/
theorem test_message_trailing_bytes :
    decoded [0x51, 0x78, 0xA8, 0x00, 0x02, 0x00, 0xDE, 0xAD, 0x26, 0xFF, 0x01, 0x02, 0x03] =
      regs [0x01, 0xA8, 0x00, 0x02, 0x00, 0x26, 0x26, 0xFF, 0x01, 0x00, 0x00, 0x00, 0x00, 0x00] := by
  decide +kernel
/-- V-DEC-3, V-DEC-5, V-DEC-9. -/
theorem test_message_errors :
    decoded [0x00, 0x00, 0x00] = verdictOnly 0x02 ∧
    decoded [0x51, 0x79, 0xA3, 0x00, 0x00, 0x00, 0x00, 0xFF] = verdictOnly 0x03 ∧
    decoded [0x51, 0x78, 0xA3, 0x00, 0x01, 0x00, 0x07, 0xFF] = verdictOnly 0x04 := by
  decide +kernel

/-! Wire commands: the words of the expansion (45_wire_commands.md), and the frames they send. -/

/-- What is presented next, from an instruction performed at reset. -/
def presents (i : Instr) : Option (List HostWord) := after (exec i State.reset) (fun t => t.hostIn)

/-- The words of an expansion. -/
def ops (ws : List OpWord) : Option (List HostWord) := some (ws.map HostWord.op)

theorem test_retract :
    presents (.retract 0x1234) = ops [0x30A0, 0x3100, 0x3202, 0x3300, 0x3400, 0x3534, 0x3512] := by
  decide
/-- P2. -/
theorem test_feed :
    presents (.feed 0x20) = ops [0x30A1, 0x3100, 0x3202, 0x3300, 0x3400, 0x3520, 0x3500] := by
  decide
/-- P3. -/
theorem test_printRow :
    presents (.printRow [0x80]) = ops [0x30A2, 0x3100, 0x3201, 0x3300, 0x3400, 0x3680] := by decide
/-- P4. -/
theorem test_getStatus :
    presents .getStatus = ops [0x30A3, 0x3100, 0x3200, 0x3300, 0x3400] := by decide
theorem test_setDpi :
    presents (.setDpi 0xCB) = ops [0x30A4, 0x3100, 0x3201, 0x3300, 0x3400, 0x35CB] := by decide
theorem test_getInfo :
    presents .getInfo = ops [0x30A8, 0x3100, 0x3200, 0x3300, 0x3400] := by decide
theorem test_setEnergy :
    presents (.setEnergy 1000) = ops [0x30AF, 0x3100, 0x3202, 0x3300, 0x3400, 0x35E8, 0x3503] := by
  decide
theorem test_setSpeed :
    presents (.setSpeed 8) = ops [0x30BD, 0x3100, 0x3201, 0x3300, 0x3400, 0x3508] := by decide
theorem test_applyEnergy :
    presents .applyEnergy = ops [0x30BE, 0x3100, 0x3201, 0x3300, 0x3400, 0x3501] := by decide
theorem test_sendRaw :
    presents (.sendRaw { command := 0x42 } [0x07]) =
      ops [0x3042, 0x3100, 0x3201, 0x3300, 0x3400, 0x3507] ∧
    presents (.sendRaw ⟨0x42, 0x07⟩ []) = ops [0x3042, 0x3107, 0x3200, 0x3300, 0x3400] := by
  decide

/-- V-MAC-5: the frame of a row is over the reversed bytes. -/
theorem test_encode_printRow :
    encode (.printRow [0xCA, 0x0F, 0x00, 0xFF]) =
      .host (.frame [0x51, 0x78, 0xA2, 0x00, 0x04, 0x00, 0x53, 0xF0, 0x00, 0xFF, 0x59, 0xFF]) := by
  decide +kernel

/-- V-MAC-14: a bitmap without rows is one feed. -/
theorem test_printBitmap_no_rows :
    printBitmapWords [] = [0x30A1, 0x3100, 0x3202, 0x3300, 0x3400, 0x3520, 0x3500] := by decide

/-- P1. -/
theorem test_crcBuf : crcBufWords [0x20, 0x00] = [0x1000, 0x1120, 0x1100, 0x0100] := by decide

/-- P4 steps 13 to 17. -/
theorem test_decDrain : decDrainWords pendingOk = [0x4000, 0x4000, 0x4000, 0x4100] := by decide

/-! ### Witnesses: states and operands that meet the hypotheses of an obligation, one for each clause -/

/-- The last implemented register number. -/
theorem witness_ResetLeavesEverythingZero : readReg State.reset 0x1D = some 0x00 := by decide

theorem witness_ResetTurnResetsTheBlock :
    let s : State := { busy with sched := [.rst, .host] }
    s.sched = .rst :: [.host] := by decide

theorem witness_StepRunsTheHostsInstruction :
    let s : State := { busy with sched := [.host], hostIn := [.op 0x3420] }
    s.sched = .host :: [] ∧ s.hostIn = .op 0x3420 :: [] ∧
    decode (.host (.op 0x3420)) = .ok .encStart ∧
    decode (.host (.frame [0x51, 0x78, 0xA8, 0x00, 0x00, 0x00, 0x00, 0xFF])) = .ok .getInfo := by
  decide +kernel

theorem witness_StepRunsTheTransportsBeat :
    let s : State := { State.reset with sched := [.transport], rxIn := [0x1FF] }
    s.sched = .transport :: [] ∧ s.rxIn = Beat.word ⟨0xFF, true⟩ :: [] := by decide

theorem witness_IllegalOpcodeIsOpError :
    let s : State := { busy with sched := [.host], hostIn := [.op 0xFFFF] }
    0x00#8 ∉ Sys2Proof.opcodes ∧ 0x42#8 ∉ Sys2Proof.opcodes ∧ 0xFF#8 ∉ Sys2Proof.opcodes ∧
    s.sched = .host :: [] ∧ s.hostIn = .op (0xFF#8 ++ 0xFF#8) :: [] := by decide

theorem witness_NothingPresentedNothingHappens :
    let s : State := { State.reset with sched := [.host] }
    let u : State := { State.reset with sched := [.transport] }
    State.reset.sched = [] ∧ (s.sched = .host :: [] ∧ s.hostIn = []) ∧
    (u.sched = .transport :: [] ∧ u.rxIn = []) := by decide

theorem witness_UnknownFrameIsRefusedByName :
    let s : State := { State.reset with sched := [.host], hostIn := [.frame []] }
    s.sched = .host :: [] ∧ s.hostIn = .frame [] :: [] ∧
    decodeFrame [] = .error .frameTooShort := by decide

/-- The longest payload, and the two rows that share words with another. -/
theorem witness_DecodeOfEncodeIsTheInstruction :
    WellFormed (.rd 0x00) ∧ WellFormed (.sendRaw { command := 0xA1 } [0x20, 0x00]) ∧
    (Instr.sendRaw { command := 0xA1 } [0x20, 0x00]).canonical = .feed 0x20 ∧
    (Instr.rd 0x00).canonical = .crcRd ∧
    ∃ row, row.length = 65535 ∧ WellFormed (.printRow row) :=
  ⟨by decide, by decide, by decide, by decide, List.replicate 65535 0x00, List.length_replicate,
    (test_wf_printRow _).2 List.length_replicate⟩

theorem witness_CanonicalHasTheSameEncoding : WellFormed (.sendRaw ⟨0xFF, 0x01⟩ []) := by decide

theorem witness_EncodeOfDecodeOpIsTheWord :
    decodeOp (0x10#8 ++ 0xAB#8) = .ok .crcClr ∧ decodeOp (0x01#8 ++ 0xFF#8) = .ok (.rd 0xFF) := by
  decide

theorem witness_IgnoredOperandSelectsTheSameOperation :
    0x10#8 ∈ [0x10#8, 0x34, 0x40, 0x41] ∧ 0x41#8 ∈ [0x10#8, 0x34, 0x40, 0x41] := by decide

theorem witness_DecodedFrameIsTheCommandsFrame :
    decodeFrame [0x51, 0x78, 0xA1, 0x00, 0x02, 0x00, 0x20, 0x00, 0xAE, 0xFF] = .ok (.feed 0x20) :=
  test_decode_frames_16.1

/-- P1, with another unit's operation among the bytes. -/
theorem witness_CrcOperationsComputeTheChecksum :
    Instr.crcClr ∉ [Instr.crcUpd 0x20, .encStart, .crcUpd 0x00] ∧
    after (execAll [.crcClr, .crcUpd 0x20, .encStart, .crcUpd 0x00] State.reset)
      (fun t => t.crc) = some 0xAE := by decide +kernel

theorem witness_ChecksumLaws : [0x12#8, 0x34].length = [0xAB#8, 0xCD].length := rfl

theorem witness_RdAnswersTheRegister :
    (0x09 ≤ (0x09#8).toNat ∧ (0x09#8).toNat ≤ 0x0F) ∧
    (0x09 ≤ (0x0F#8).toNat ∧ (0x0F#8).toNat ≤ 0x0F) ∧ 0x1E ≤ (0x1E#8).toNat ∧
    0x1E ≤ (0xFF#8).toNat := by decide

theorem witness_EncHeaderWritesWhileIdle : State.reset.enc.busy = false := rfl

theorem witness_EncHeaderLockedWhileBusy :
    busy.enc.busy = true ∧ Instr.encStart ∈ [Instr.encCmd 0x00, .encStart] := by decide

theorem witness_EncStartEmitsTheHeader :
    (State.reset.enc.busy = false ∧ State.reset.enc.len = 0) ∧
    ({ EncState.reset with len := 0xFFFF } : EncState).len ≠ 0 := by decide

theorem witness_EncPutEmitsOneByte :
    (busy.enc.busy = true ∧ 1 < busy.enc.rem.toNat) ∧
    (busyLast.enc.busy = true ∧ busyLast.enc.rem = 1) ∧ State.reset.enc.busy = false ∧
    (Instr.encPutr 0x80 = .encPutr 0x80 ∧ 0x01#8 = rev8 0x80) := by decide

theorem witness_FrameOperationsEmitTheEncodedFrame :
    (State.reset.enc.busy = false ∧ (List.replicate 65535 0x00#8).length ≤ 65535) ∧
    [Instr.crcClr, .encCmd 0xA3, .encType 0x00, .rxBeat 0x51, .encLenl 0x00, .encLenh 0x00,
      .encStart].filter isEncOp = frameInstrs 0xA3 0x00 [] ∧
    after (execAll [.crcClr, .encCmd 0xA3, .encType 0x00, .rxBeat 0x51, .encLenl 0x00,
      .encLenh 0x00, .encStart] State.reset) (fun u => u.enc.cmd) = some 0xA3 :=
  ⟨⟨rfl, Nat.le_of_eq List.length_replicate⟩, rfl, by decide⟩

theorem witness_TxStreamStaysWholeFrames : TxFramed State.reset ∧ TxFramed busy :=
  ⟨⟨[], by simp, .inl ⟨rfl, rfl, rfl⟩⟩,
    ⟨[], by simp, .inr ⟨rfl, [], rfl, rfl, by decide, rfl⟩⟩⟩

theorem witness_PayloadIsLeftOnlyByItsLastByteOrReset :
    after (step { busyLast with sched := [.host], hostIn := [.op 0x350F] })
      (fun t => t.enc.busy) = some false ∧
    after (step { busyLast with sched := [.rst] }) (fun t => t.enc.busy) = some false := by
  decide +kernel

theorem witness_PayloadCommandsExpandToTheirWords :
    (List.replicate 65535 0x00#8).length ≤ 65535 ∧ 65535 < (List.replicate 65536 0x00#8).length :=
  ⟨Nat.le_of_eq List.length_replicate, by rw [List.length_replicate]; omega⟩

/-- GETSTATUS at reset: one turn for the command and five for its words. -/
theorem witness_WireCommandSendsItsFrame :
    let bytes := [0x51#8, 0x78, 0xA3, 0x00, 0x00, 0x00, 0x00, 0xFF]
    let s : State :=
      { State.reset with hostIn := [.frame bytes], sched := List.replicate 6 Turn.host }
    WellFormed .getStatus ∧ encode .getStatus = .host (.frame bytes) ∧ s.enc.busy = false ∧
    s.hostIn = .frame bytes :: [] ∧
    s.sched = List.replicate (bytes.length - 2) .host ++ [] := by decide +kernel

theorem witness_PrintBitmapSendsRowsThenFeed :
    let s : State :=
      { State.reset with
        hostIn := (printBitmapWords [[0x80]]).map HostWord.op
        sched := List.replicate 13 Turn.host }
    (∀ row ∈ [[0x80#8]], row.length ≤ 65535) ∧ s.enc.busy = false ∧
    s.hostIn = (printBitmapWords [[0x80]]).map HostWord.op ++ [] ∧
    s.sched = List.replicate (printBitmapWords [[0x80]]).length Turn.host ++ [] :=
  ⟨by simp, rfl, rfl, rfl⟩

/-- One message for each verdict, at the length where the clauses meet. -/
theorem witness_DecodeChecksInOrder :
    [0x51#8, 0x78, 0xA3, 0x00, 0x00, 0x00, 0x00].length < 8 ∧
    byteAt [0x51, 0x79, 0xA3, 0x00, 0x00, 0x00, 0x00, 0xFF] 1 ≠ 0x78 ∧
    [0x51#8, 0x78, 0xA3, 0x00, 0x01, 0x00, 0x07, 0xFF].length < 8 + 1 + 256 * 0 ∧
    8 + 0 + 256 * 0 ≤ [0x51#8, 0x78, 0xA3, 0x00, 0x00, 0x00, 0x00, 0xFF].length := by decide

theorem witness_DecodeOfEncodedFrame :
    ([] : List Byte).length ≤ 65535 ∧ (List.replicate 65535 0x00#8).length ≤ 65535 :=
  ⟨by decide, Nat.le_of_eq List.length_replicate⟩

/-- Each place of a message with `L = 3`: the last header byte, the first and the last payload byte, the
checksum, the end marker, and the saturated count. -/
theorem witness_RxBeatStoresByPosition :
    (receiving 6).res.pending = false ∧ (receiving 5).work.cnt.toNat = 5 ∧
    (receiving 6).work.cnt.toNat = 6 ∧ (receiving 8).work.cnt.toNat < 6 + 3 ∧
    (receiving 9).work.cnt.toNat = 6 + 3 ∧ (receiving 10).work.cnt.toNat = 7 + 3 ∧
    (receiving 131071).work.cnt.toNat = 131071 := by decide

theorem witness_RxBeatWaitsWhilePending :
    let s : State := { pendingOk with sched := [.transport] }
    pendingOk.res.pending = true ∧ s.res.pending = true ∧ s.sched = .transport :: [] := by decide

/-- The last beat of a message that is too short, of one with a wrong sync byte, of a truncated one, of a
status reply and of another frame: the count and the header with the beat stored. -/
theorem witness_LastBeatLatchesTheResult :
    after (exec (.rxBeat 0x00) (receiving 6)) (fun u => u.work.cnt.toNat) = some 7 ∧
    after (exec (.rxBeat 0x00) { receiving 7 with
      work := { (receiving 7).work with hdr := #v[0x51, 0x79, 0xA3, 0x00, 0x00, 0x00] } })
      (fun u => (u.work.cnt.toNat, u.work.hdr[1])) = some (8, 0x79) ∧
    after (exec (.rxBeat 0x70) (receiving 9)) (fun u => u.work.cnt.toNat) = some 10 ∧
    after (exec (.rxBeat 0xFF) (receiving 10)) (fun u => (u.work.cnt.toNat, u.work.hdr[2])) =
      some (8 + 3, 0xA3) ∧
    after (exec (.rxBeat 0xFF) { receiving 7 with
      work := { (receiving 7).work with hdr := #v[0x51, 0x78, 0xA8, 0x00, 0x00, 0x00] } })
      (fun u => (u.work.cnt.toNat, u.work.hdr[2])) = some (8, 0xA8) := by decide +kernel

theorem witness_DecPayPopsTheNextByte :
    (pendingOk.res.pending = true ∧ pendingOk.res.verdict = .ok ∧
      pendingOk.res.rp.toNat < pendingOk.res.len.toNat) ∧
    State.reset.res.pending = false ∧ pendingShort.res.verdict ≠ .ok ∧
    (3 : Half).toNat ≤ ({ pendingOk.res with rp := 3 } : DecResult).rp.toNat := by decide

theorem witness_DecAckReleasesTheResult :
    pendingOk.res.pending = true ∧ State.reset.res.pending = false := by decide

/-- V-DEC-2: a message of one byte, the host's word before its beat. -/
theorem witness_MessageDecodedUnderAnyInterleaving :
    let s : State :=
      { State.reset with
        rxIn := [0x151], hostIn := [.op 0x1101], sched := [.host, .transport] }
    [0x51#8] ≠ [] ∧ s.res.pending = false ∧ s.work = DecWork.reset ∧
    s.rxIn = (beatsOf [0x51]).map Beat.word ++ [] ∧ s.hostIn = [0x1101#16].map HostWord.op ∧
    s.sched = [.host] ++ .transport :: [] ∧ Turn.rst ∉ [Turn.host] ∧
    [Turn.host].count .transport + 1 = [0x51#8].length := by decide

theorem witness_DrainAnswersTheWholePayload :
    pendingOk.res.pending = true ∧ pendingOk.res.verdict = .ok ∧ pendingOk.res.rp = 0 ∧
    [0x01#8, 0x00, 0x05].length = pendingOk.res.len.toNat ∧
    ∀ (k : Nat) (h : k < [0x01#8, 0x00, 0x05].length),
      memGet pendingOk.buf k = some [0x01#8, 0x00, 0x05][k] := by decide

theorem witness_LoopBackRoundTrip :
    [0xCA#8, 0x53, 0x0F].length ≤ 65535 ∧ State.reset.enc.busy = false ∧
    State.reset.res.pending = false ∧ State.reset.work = DecWork.reset := by decide

/-- Both clauses: DEC.ACK, and a pop. -/
theorem witness_PendingResultIsHeld :
    after (step { pendingOk with sched := [.host], hostIn := [.op 0x4100] })
      (fun t => t.res) = some State.reset.res ∧
    after (step { pendingOk with sched := [.host], hostIn := [.op 0x4000] })
      (fun t => t.res.rp) = some 1 := by decide +kernel

theorem witness_reset_inv : Inv State.reset ∧ FlagsInv State.reset := by decide

theorem witness_IrqAgreesWithTheVerdict : Inv pendingOk ∧ Inv pendingShort ∧ Inv busy :=
  ⟨by decide, by decide, by decide⟩

theorem witness_OpErrorExactlyForItsCauses :
    IsOperation .decAck ∧ OpErrorCause .decAck State.reset ∧ ¬ OpErrorCause .crcClr State.reset :=
  ⟨rfl, rfl, id⟩

/-- One instruction of each group. -/
theorem witness_UnitsDoNotDisturbOneAnother :
    (after (exec (.crcUpd 0x01) busy) (fun t => t.crc) = some 0x07) ∧
    (answer (exec (.brev 0x80) busy) = good 0x01) ∧
    (answer (exec (.encPut 0xCA) busy) = good 0xCA) ∧ (answer (exec .decPay pendingOk) = good 0x01) ∧
    (after (exec (.rxBeat 0x51) busy) (fun t => t.work.cnt) = some 1) ∧
    (after (exec .getInfo busy) (fun t => t.hostIn.length) = some 5) := by decide +kernel

theorem witness_HostComputationCommutesWithRxBeats : isEncOp (.encPut 0x20) = true := rfl

theorem witness_EveryWellFormedInstructionCompletes :
    WellFormed (.sendRaw { command := 0xA1 } [0x20, 0x00]) := by decide

theorem witness_InvariantsHoldInEveryReachableState :
    after (Host.Core.run Sys2Proof.core 1
      { State.reset with hostIn := [.op 0x1101], rxIn := [], sched := [.host] })
      (fun t : State => t.crc) = some 0x07 := by decide +kernel

/-- A beat that stores a payload byte. -/
theorem witness_EveryStepKeepsTheInvariant :
    Inv { receiving 6 with sched := [.transport], rxIn := [0x001] } ∧
    after (step { receiving 6 with sched := [.transport], rxIn := [0x001] })
      (fun t => t.buf) = some [(0, 0x01)] := by decide +kernel

theorem witness_EveryStepKeepsTheFlags :
    Inv pendingOk ∧ FlagsInv pendingOk ∧
    after (step { pendingOk with sched := [.host], hostIn := [.op 0x4000] })
      (fun t => t.res.stvalid) = some true := by decide +kernel

/-- A pop of a payload byte. -/
theorem witness_NoStepReadsAnUnspecifiedByte :
    Inv { pendingOk with sched := [.host], hostIn := [.op 0x4000] } ∧
    answer (step { pendingOk with sched := [.host], hostIn := [.op 0x4000] }) = good 0x01 := by
  decide +kernel

end Sys2Proof.Tests
end

section
/-! Proofs of the family 10_state.md: reset, the waiting step, the frame of each group of instructions
(R20), the invariants (R40, R35, R36) and the bytes of `buf` that no rule reads (R49). -/

namespace Sys2Proof.Machine

variable {s t : State} {i : Instr}

/-! ### The step, forward -/

theorem step_unscheduled (hs : s.sched = []) : step s = .next s := by
  simp [step, fetch, hs]

theorem step_reset {turns : List Turn} (hs : s.sched = .rst :: turns) :
    step s = .next (resetBlock { s with sched := turns }) := by
  simp [step, fetch, hs]

theorem step_host_idle {turns : List Turn} (hs : s.sched = .host :: turns) (hh : s.hostIn = []) :
    step s = .next { s with sched := turns } := by
  simp [step, fetch, hs, hh]

theorem step_host_instr {turns : List Turn} {w : HostWord} {ws : List HostWord}
    (hs : s.sched = .host :: turns) (hh : s.hostIn = w :: ws) (hd : decodeHost w = .ok i) :
    step s = exec i { s with sched := turns, hostIn := ws } := by
  simp [step, fetch, hs, hh, fetchHost, hd]

theorem step_host_illegal {turns : List Turn} {w : OpWord} {ws : List HostWord} {why : DecodeReject}
    (hs : s.sched = .host :: turns) (hh : s.hostIn = .op w :: ws) (hd : decodeOp w = .error why) :
    step s = .next (opError { s with sched := turns, hostIn := ws }) := by
  simp [step, fetch, hs, hh, fetchHost, decodeHost, hd]

theorem step_transport_idle {turns : List Turn} (hs : s.sched = .transport :: turns)
    (hr : s.rxIn = []) : step s = .next { s with sched := turns } := by
  simp [step, fetch, hs, hr]

theorem step_beat {turns : List Turn} {b : Beat} {ws : List BeatWord}
    (hs : s.sched = .transport :: turns) (hr : s.rxIn = b.word :: ws) :
    step s = .next (takeBeat b { s with sched := turns, rxIn := ws }) := by
  simp only [step, fetch, hs, hr, decodeBeat_word, exec_beatInstr]

/-- A run keeps what every step keeps. -/
theorem run_keeps {M : Host.Core} {P : M.State → Prop}
    (hstep : ∀ s t, P s → M.step s = .next t → P t) (k : Nat) {s t : M.State}
    (hs : P s) (h : M.run k s = .next t) : P t := by
  induction k generalizing s with
  | zero => exact Host.Outcome.next.inj h ▸ hs
  | succ k ih =>
    unfold Host.Core.run at h
    split at h
    · next u hu => exact ih (hstep s u hs hu) h
    · cases h
    · cases h

/-! ### What each group of instructions leaves unchanged (10_state.md R20) -/

/-- A register read changes the responses only. -/
theorem respondReg_frame (n : Byte) (s : State) :
    respondReg n s = { s with rspOut := (respondReg n s).rspOut } := by
  rcases respondReg_is_response n s with ⟨v, -, h⟩ | ⟨-, h⟩ <;> rw [h] <;> rfl

theorem exec_crc_frame (hi : i = .crcClr ∨ ∃ b, i = .crcUpd b) (h : exec i s = .next t) :
    t = { s with crc := t.crc, rspOut := t.rspOut } := by
  rcases hi with rfl | ⟨b, rfl⟩
  · cases h; rfl
  · rw [exec_crcUpd] at h
    generalize crc8Step s.crc b = c at h
    cases h; rfl

theorem exec_read_frame (hi : i = .crcRd ∨ (∃ n, i = .rd n) ∨ ∃ b, i = .brev b)
    (h : exec i s = .next t) : t = { s with rspOut := t.rspOut } := by
  rcases hi with rfl | ⟨n, rfl⟩ | ⟨b, rfl⟩
  · cases h; exact respondReg_frame _ s
  · cases h; exact respondReg_frame _ s
  · cases h; rfl

theorem exec_enc_frame (hi : isEncOp i = true) (h : exec i s = .next t) :
    t = { s with enc := t.enc, txOut := t.txOut, rspOut := t.rspOut } := by
  rcases exec_enc_op hi h with ⟨e, ht, -⟩ | ht | ⟨v, ht⟩
  · obtain ⟨_, _, _, he⟩ := (enc_frame e 0 s).1
    rw [ht, he]
  · obtain ⟨_, _, _, he⟩ := (enc_frame s.enc 0 s).2.1
    rw [ht, he]
  · obtain ⟨_, _, _, he⟩ := (enc_frame s.enc v s).2.2
    rw [ht, he]

theorem exec_result_frame (hi : i = .decPay ∨ i = .decAck) (h : exec i s = .next t) :
    t = { s with res := t.res, rspOut := t.rspOut } := by
  rcases hi with rfl | rfl
  · rcases exec_decPay_cases s with ⟨-, -, -, he⟩ | ⟨-, he⟩ <;> rw [he] at h <;> cases h <;> rfl
  · rcases exec_decAck_cases s with ⟨-, he⟩ | ⟨-, he⟩ <;> rw [he] at h <;> cases h <;> rfl

/-- The instructions of format BEAT are the beats (30_encoding.md R101). -/
theorem eq_beatInstr_of_format (hi : i.format = .beat) : ∃ b, i = beatInstr b := by
  cases i <;> simp only [Instr.format, reduceCtorEq] at hi
  case rxBeat b => exact ⟨⟨b, false⟩, rfl⟩
  case rxBeatLast b => exact ⟨⟨b, true⟩, rfl⟩

theorem exec_beat_frame (hi : i.format = .beat) (h : exec i s = .next t) :
    t = { s with work := t.work, res := t.res, buf := t.buf, rxIn := t.rxIn } := by
  obtain ⟨b, rfl⟩ := eq_beatInstr_of_format hi
  rw [exec_beatInstr] at h
  cases h
  exact takeBeat_frame b s

theorem exec_wire_frame (hi : i.format = .frame) (h : exec i s = .next t) :
    t = { s with hostIn := t.hostIn } := by
  obtain ⟨ws, rfl⟩ := exec_frame_format hi h
  rfl

/-- Every instruction belongs to one of the groups. -/
theorem instr_groups (i : Instr) :
    (i = .crcClr ∨ ∃ b, i = .crcUpd b) ∨ (i = .crcRd ∨ (∃ n, i = .rd n) ∨ ∃ b, i = .brev b) ∨
    isEncOp i = true ∨ i = .decPay ∨ i = .decAck ∨ (∃ b, i = beatInstr b) ∨ i.format = .frame := by
  cases i
  case rxBeat b => exact .inr (.inr (.inr (.inr (.inr (.inl ⟨⟨b, false⟩, rfl⟩)))))
  case rxBeatLast b => exact .inr (.inr (.inr (.inr (.inr (.inl ⟨⟨b, true⟩, rfl⟩)))))
  all_goals simp [isEncOp, Instr.format]

/-- Settles O47: one frame lemma for each group. -/
theorem unitsDoNotDisturbOneAnother : Obligations.UnitsDoNotDisturbOneAnother :=
  fun _ _ _ h =>
    ⟨(exec_crc_frame · h), (exec_read_frame · h), (exec_enc_frame · h), (exec_result_frame · h),
      (exec_beat_frame · h), (exec_wire_frame · h)⟩

/-! ### Reset, and the waiting step -/

theorem readReg_reset {n v : Byte} (h : readReg State.reset n = some v) : v = 0 := by
  unfold readReg at h
  split at h <;> cases h <;> rfl

/-- Settles O1: the fields by computation, the registers one by one. -/
theorem resetLeavesEverythingZero : Obligations.ResetLeavesEverythingZero :=
  ⟨rfl, rfl, rfl, by decide, rfl, rfl, rfl, rfl, fun _ _ => readReg_reset, rfl, rfl, rfl⟩

/-- Settles O6: no turn is scheduled, or the agent whose turn it is presents nothing. -/
theorem nothingPresentedNothingHappens : Obligations.NothingPresentedNothingHappens :=
  ⟨fun _ => step_unscheduled, fun _ _ => step_host_idle, fun _ _ => step_transport_idle⟩

/-- Settles O50: the reset state is concrete, and both invariants are decidable of it. -/
theorem invariantHoldsAtReset : Obligations.InvariantHoldsAtReset := by
  unfold Obligations.InvariantHoldsAtReset
  decide

theorem Inv.bufInv (hs : Inv s) : BufInv s := hs.2.2

/-- While DEC takes beats no result stands (10_state.md R40 (c)). -/
theorem Inv.res_eq_reset (hs : Inv s) (hp : s.res.pending = false) : s.res = DecResult.reset :=
  hs.2.1.1 hp

/-! ### ENC operations keep the invariant of ENC (10_state.md R40 (a), (b)) -/

/-- The header is written only while ENC is idle, and does not touch what R40 speaks of then. -/
theorem writeHeader_encInv {e : EncState} (hs : EncInv s)
    (he : s.enc.rem = e.rem ∧ s.enc.crc = e.crc ∧ s.enc.busy = e.busy) :
    EncInv (writeHeader e s) := by
  obtain ⟨hrem, -, hbusy⟩ := he
  cases h : s.enc.busy with
  | true => rw [writeHeader_busy e h]; exact hs
  | false =>
    rw [writeHeader_idle e h]
    exact ⟨fun _ => hrem.symm.trans (hs.1 h), fun hb => by simp_all⟩

theorem startFrame_encInv (hs : EncInv s) : EncInv (startFrame s) := by
  cases h : s.enc.busy with
  | true => rw [startFrame_busy h]; exact hs
  | false =>
    by_cases hl : s.enc.len = 0
    · rw [startFrame_empty h hl]
      exact ⟨fun _ => rfl, fun hb => by simp_all⟩
    · rw [startFrame_open h hl]
      exact ⟨fun hb => by simp at hb, fun _ => ⟨by bv_omega, BitVec.le_refl _⟩⟩

/-- One byte less is owed; the last one leaves ENC idle. -/
theorem putByte_encInv (v : Byte) (hs : EncInv s) : EncInv (putByte v s) := by
  cases h : s.enc.busy with
  | false => rw [putByte_idle v h]; exact hs
  | true =>
    obtain ⟨hpos, hle⟩ := hs.2 h
    by_cases hr : s.enc.rem = 1
    · rw [putByte_last v h hr]
      exact ⟨fun _ => rfl, fun hb => by simp at hb⟩
    · rw [putByte_more v h hr]
      exact ⟨fun hb => by simp_all, fun _ => ⟨by bv_omega, by bv_omega⟩⟩

theorem exec_enc_encInv (hi : isEncOp i = true) (h : exec i s = .next t) (hs : EncInv s) :
    EncInv t := by
  rcases exec_enc_op hi h with ⟨e, rfl, he⟩ | rfl | ⟨v, rfl⟩
  · exact writeHeader_encInv hs he
  · exact startFrame_encInv hs
  · exact putByte_encInv v hs

/-! ### DEC operations and beats keep the invariant of DEC (10_state.md R40 (c) to (g), R49) -/

/-- A byte stored is in its place, and no byte stored earlier is lost. -/
theorem memGet_memSet_isSome {m : Memory} {j k : Nat} {b : Byte}
    (h : k ≠ j → (memGet m k).isSome = true) : (memGet (memSet m j b) k).isSome = true := by
  by_cases hk : k = j
  · simp [hk]
  · rw [memGet_memSet_other m b hk]; exact h hk

theorem memGet_eq_bufRead {k : Nat} (h : (memGet s.buf k).isSome = true) :
    memGet s.buf k = some (bufRead s k) := by
  obtain ⟨v, hv⟩ := Option.isSome_iff_exists.1 h
  simp [bufRead, hv]

/-- Up to the last header byte nothing of the payload is received. -/
theorem received_eq_zero {w : DecWork} (h : w.cnt.toNat ≤ 6) : received w = 0 := by
  unfold received; omega

/-- After the payload all of it is received, however many bytes follow. -/
theorem received_eq_len {w : DecWork} (h : 6 + (workLen w).toNat ≤ w.cnt.toNat) :
    received w = (workLen w).toNat := by
  unfold received; omega

@[simp] theorem storeByte_enc (b : Byte) (s : State) : (storeByte b s).enc = s.enc := by
  rw [storeByte_frame]

@[simp] theorem storeByte_res (b : Byte) (s : State) : (storeByte b s).res = s.res := by
  rw [storeByte_frame]

/-- A byte after the payload goes to no header byte and not to `buf`. -/
theorem storeByte_after_payload (b : Byte) (h : 6 + (workLen s.work).toNat ≤ s.work.cnt.toNat) :
    (storeByte b s).buf = s.buf ∧ (storeByte b s).work.hdr = s.work.hdr := by
  obtain h | h | h : s.work.cnt.toNat = 6 + (workLen s.work).toNat ∨
    s.work.cnt.toNat = 7 + (workLen s.work).toNat ∨
    7 + (workLen s.work).toNat < s.work.cnt.toNat := by omega
  · rw [storeByte_checksum b h]; exact ⟨rfl, rfl⟩
  · rw [storeByte_end b h]; exact ⟨rfl, rfl⟩
  · rw [storeByte_beyond b h]; exact ⟨rfl, rfl⟩

/-- Storing a byte leaves `buf` alone and adds nothing to the payload received, or puts the next payload
byte in its place. -/
theorem storeByte_received (b : Byte) (s : State) :
    ((storeByte b s).buf = s.buf ∧ received (storeByte b s).work ≤ received s.work) ∨
    (received s.work < (workLen s.work).toNat ∧
      (storeByte b s).buf = memSet s.buf (received s.work) b ∧
      received (storeByte b s).work ≤ received s.work + 1) := by
  have hcnt := countUp_toNat s.work.cnt
  by_cases hhdr : s.work.cnt.toNat < 6
  · have hzero : received (storeByte b s).work = 0 :=
      received_eq_zero (by rw [storeByte_cnt]; omega)
    refine .inl ⟨?_, by omega⟩
    rw [storeByte_header b hhdr]
  · by_cases hpay : s.work.cnt.toNat < 6 + (workLen s.work).toNat
    · have hrec : received s.work = s.work.cnt.toNat - 6 := by unfold received; omega
      refine .inr ⟨by omega, ?_⟩
      rw [hrec, storeByte_payload b (by omega) hpay]
      refine ⟨rfl, ?_⟩
      simp only [received]; omega
    · obtain ⟨hbuf, hlen⟩ := storeByte_after_payload b (Nat.not_lt.1 hpay)
      refine .inl ⟨hbuf, ?_⟩
      rw [received_eq_len (Nat.not_lt.1 hpay), received, workLen, hlen]
      exact Nat.min_le_right _ _

theorem storeByte_bufInv (b : Byte) (hs : BufInv s) (hv : s.res.verdict ≠ .ok) :
    BufInv (storeByte b s) := by
  obtain ⟨hwf, hrec, -⟩ := hs
  have hlt := workLen_lt s.work
  rcases storeByte_received b s with ⟨hbuf, hle⟩ | ⟨hlen, hbuf, hle⟩ <;>
    refine ⟨hbuf ▸ ?_, fun k hk => hbuf ▸ ?_, fun h => absurd h (by rwa [storeByte_res])⟩
  · exact hwf
  · exact hrec k (by omega)
  · exact memSet_wf _ _ _ (by simp only [Config.decBufBytes]; omega) hwf
  · exact memGet_memSet_isSome fun hne => hrec k (by omega)

/-- While no result stands R40 says nothing of the working state. -/
theorem storeByte_inv (b : Byte) (hs : Inv s) (hp : s.res.pending = false) :
    Inv (storeByte b s) := by
  have hreset := hs.res_eq_reset hp
  obtain ⟨henc, -, hbuf⟩ := hs
  refine ⟨?_, ?_, storeByte_bufInv b hbuf (by rw [hreset]; decide)⟩
  · simpa only [EncInv, storeByte_enc] using henc
  · simp [ResInv, hreset, DecResult.reset]

/-- A message long enough for verdict OK has its whole payload in `buf`. -/
theorem payload_stored (hs : BufInv s) (hlen : 8 + (workLen s.work).toNat ≤ s.work.cnt.toNat) :
    ∀ k, k < (workLen s.work).toNat → (memGet s.buf k).isSome = true := by
  obtain ⟨-, hrec, -⟩ := hs
  rwa [received_eq_len (by omega)] at hrec

theorem latch_resInv (s : State) : ResInv (latch s) := by
  simp only [ResInv, latch_res, latch_work]
  rcases classify_cases s with ⟨v, hok, hnone, hc⟩ | ⟨-, hc⟩ <;> rw [hc]
  · simp [errorResult, DecResult.reset, hnone]
  · simp [okResult, BitVec.le_def]

theorem latch_inv (hs : Inv s) : Inv (latch s) := by
  obtain ⟨henc, -, hbuf⟩ := hs
  refine ⟨henc, latch_resInv s, hbuf.1, fun k hk => ?_, fun hv => ?_⟩
  · rw [latch_work, received_eq_zero (by decide)] at hk
    exact absurd hk (Nat.not_lt_zero k)
  · rw [latch_res] at hv ⊢
    rcases classify_cases s with ⟨v, hok, -, hc⟩ | ⟨hlen, hc⟩ <;> rw [hc] at hv ⊢
    · exact absurd hv hok
    · exact payload_stored hbuf hlen

theorem takeBeat_inv (b : Beat) (hs : Inv s) : Inv (takeBeat b s) := by
  obtain ⟨d, last⟩ := b
  cases hp : s.res.pending with
  | true => rw [takeBeat_pending _ hp]; exact hs
  | false =>
    have hu := storeByte_inv d hs hp
    cases last with
    | false => rw [takeBeat_accepted d hp]; exact hu
    | true => rw [takeBeat_last d hp]; exact latch_inv hu

/-- A pop moves `dec_rp` at most to the end of the payload. -/
theorem exec_decPay_inv (hs : Inv s) (h : exec .decPay s = .next t) : Inv t := by
  rcases exec_decPay_cases s with ⟨hp, hv, hlt, he⟩ | ⟨-, he⟩ <;> rw [he] at h <;> cases h
  · obtain ⟨henc, ⟨-, hnone, -, -, hwork⟩, hbuf⟩ := hs
    have hrp : s.res.rp + 1 ≤ s.res.len := by bv_omega
    exact ⟨henc, ⟨fun h => by simp_all, hnone, fun h => absurd hv h, hrp, hwork⟩, hbuf⟩
  · exact hs

theorem exec_decAck_inv (hs : Inv s) (h : exec .decAck s = .next t) : Inv t := by
  rcases exec_decAck_cases s with ⟨-, he⟩ | ⟨-, he⟩ <;> rw [he] at h <;> cases h
  · obtain ⟨henc, -, hwf, hrec, -⟩ := hs
    exact ⟨henc, by simp [ResInv, DecResult.reset], hwf, hrec, fun hv => by cases hv⟩
  · exact hs

/-! ### What a step can do to the units -/

/-- The two states agree in ENC, DEC and `buf`, of which the invariants speak. -/
structure SameUnits (s t : State) : Prop where
  enc : t.enc = s.enc
  work : t.work = s.work
  res : t.res = s.res
  buf : t.buf = s.buf

theorem SameUnits.refl (s : State) : SameUnits s s := ⟨rfl, rfl, rfl, rfl⟩

theorem Inv.congr (h : SameUnits s t) (hs : Inv s) : Inv t := by
  obtain ⟨henc, hwork, hres, hbuf⟩ := h
  simpa only [Inv, EncInv, ResInv, BufInv, henc, hwork, hres, hbuf] using hs

theorem FlagsInv.congr (h : SameUnits s t) (hs : FlagsInv s) : FlagsInv t := by
  obtain ⟨-, -, hres, hbuf⟩ := h
  simpa only [FlagsInv, hres, hbuf] using hs

/-- What may change the units of `s` into those of `t`. -/
inductive UnitsStep (s t : State) : Prop where
  | same (h : SameUnits s t)
  | reset (h : SameUnits State.reset t)
  | enc (i : Instr) (hi : isEncOp i = true) (h : exec i s = .next t)
  | pay (h : exec .decPay s = .next t)
  | ack (h : exec .decAck s = .next t)
  | beat (b : Beat) (h : t = takeBeat b s)

theorem exec_unitsStep (h : exec i s = .next t) : UnitsStep s t := by
  rcases instr_groups i with hi | hi | hi | rfl | rfl | ⟨b, rfl⟩ | hi
  · rw [exec_crc_frame hi h]; exact .same ⟨rfl, rfl, rfl, rfl⟩
  · rw [exec_read_frame hi h]; exact .same ⟨rfl, rfl, rfl, rfl⟩
  · exact .enc i hi h
  · exact .pay h
  · exact .ack h
  · rw [exec_beatInstr] at h; exact .beat b (Host.Outcome.next.inj h).symm
  · rw [exec_wire_frame hi h]; exact .same ⟨rfl, rfl, rfl, rfl⟩

/-- A step takes the turn and the word, and then does one thing to the units. -/
theorem step_unitsStep (h : step s = .next t) : ∃ u, SameUnits s u ∧ UnitsStep u t := by
  rcases step_cases h with ⟨-, rfl⟩ | ⟨turns, -, rfl⟩ | ⟨turns, -, -, rfl⟩ |
    ⟨turns, w, ws, i, -, -, -, hx⟩ | ⟨turns, w, ws, why, -, -, -, rfl⟩ | ⟨turns, -, -, rfl⟩ |
    ⟨turns, b, ws, -, -, rfl⟩
  · exact ⟨_, .refl _, .same (.refl _)⟩
  · exact ⟨s, .refl s, .reset ⟨rfl, rfl, rfl, rfl⟩⟩
  · exact ⟨s, .refl s, .same ⟨rfl, rfl, rfl, rfl⟩⟩
  · exact ⟨{ s with sched := turns, hostIn := ws }, ⟨rfl, rfl, rfl, rfl⟩, exec_unitsStep hx⟩
  · exact ⟨s, .refl s, .same ⟨rfl, rfl, rfl, rfl⟩⟩
  · exact ⟨s, .refl s, .same ⟨rfl, rfl, rfl, rfl⟩⟩
  · exact ⟨{ s with sched := turns, rxIn := ws }, ⟨rfl, rfl, rfl, rfl⟩, .beat b rfl⟩

/-! ### The invariants -/

theorem UnitsStep.inv (h : UnitsStep s t) (hs : Inv s) : Inv t := by
  cases h with
  | same h => exact hs.congr h
  | reset h => exact invariantHoldsAtReset.1.congr h
  | enc i hi h =>
    obtain ⟨henc, hrest⟩ := hs
    have ht := exec_enc_encInv hi h henc
    rw [exec_enc_frame hi h] at ht ⊢
    exact ⟨ht, hrest⟩
  | pay h => exact exec_decPay_inv hs h
  | ack h => exact exec_decAck_inv hs h
  | beat b h => exact h ▸ takeBeat_inv b hs

/-- Settles O52: the units are changed by one of the operations, each of which keeps the invariant. -/
theorem everyStepKeepsTheInvariant : Obligations.EveryStepKeepsTheInvariant := by
  intro s t hs h
  obtain ⟨u, hsame, hstep⟩ := step_unitsStep h
  exact hstep.inv (hs.congr hsame)

/-! ### The flags and the status registers (10_state.md R35, R36) -/

/-- Without a result every flag and status register is 0. -/
theorem flagsInv_of_res_reset (h : s.res = DecResult.reset) : FlagsInv s := by
  simp [FlagsInv, h, DecResult.reset]

/-- The status tap reads payload bytes that the message has stored (43_dec.md R198). -/
theorem latch_flagsInv (hs : BufInv s) : FlagsInv (latch s) := by
  simp only [FlagsInv, latch_res, latch_buf]
  rcases classify_cases s with ⟨v, hok, -, hc⟩ | ⟨hlen, hc⟩ <;> rw [hc]
  · simp [errorResult, DecResult.reset, hok]
  · have hget := fun k hk => memGet_eq_bufRead (payload_stored hs hlen k hk)
    by_cases hst : s.work.hdr[2] = Config.cmdStatus ∧ Config.statusMinLen ≤ (workLen s.work).toNat
    · have h3 := hst.2
      simp only [Config.statusMinLen] at h3
      simp [okResult, hst, hget 0 (by omega), hget 1 (by omega), hget 2 (by omega)]
    · simp [okResult, hst]

theorem takeBeat_flagsInv (b : Beat) (hs : Inv s) (hf : FlagsInv s) : FlagsInv (takeBeat b s) := by
  obtain ⟨d, last⟩ := b
  cases hp : s.res.pending with
  | true => rw [takeBeat_pending _ hp]; exact hf
  | false =>
    cases last with
    | false =>
      rw [takeBeat_accepted d hp]
      exact flagsInv_of_res_reset (by rw [storeByte_res, hs.res_eq_reset hp])
    | true => rw [takeBeat_last d hp]; exact latch_flagsInv (storeByte_inv d hs hp).bufInv

theorem UnitsStep.flagsInv (h : UnitsStep s t) (hs : Inv s) (hf : FlagsInv s) : FlagsInv t := by
  cases h with
  | same h => exact hf.congr h
  | reset h => exact flagsInv_of_res_reset h.res
  | enc i hi h => rw [exec_enc_frame hi h]; exact hf
  | pay h =>
    rcases exec_decPay_cases s with ⟨-, -, -, he⟩ | ⟨-, he⟩ <;> rw [he] at h <;> cases h <;> exact hf
  | ack h =>
    rcases exec_decAck_cases s with ⟨-, he⟩ | ⟨-, he⟩ <;> rw [he] at h <;> cases h
    · exact flagsInv_of_res_reset rfl
    · exact hf
  | beat b h => exact h ▸ takeBeat_flagsInv b hs hf

/-- Settles O53: the flags are written by the latch and cleared with the result. -/
theorem everyStepKeepsTheFlags : Obligations.EveryStepKeepsTheFlags := by
  intro s t hs hf h
  obtain ⟨u, hsame, hstep⟩ := step_unitsStep h
  exact hstep.flagsInv (hs.congr hsame) (hf.congr hsame)

/-- Settles O51: the invariants hold at reset, whatever is presented, and every step of a run keeps
them. -/
theorem invariantsHoldInEveryReachableState : Obligations.InvariantsHoldInEveryReachableState := by
  intro hostIn rxIn sched k t h
  refine run_keeps (P := fun s : State => Inv s ∧ FlagsInv s) (fun s t hs hstep => ?_) k ?_ h
  · exact ⟨everyStepKeepsTheInvariant s t hs.1 hstep, everyStepKeepsTheFlags s t hs.1 hs.2 hstep⟩
  · exact invariantHoldsAtReset

/-! ### The unspecified bytes of `buf` (10_state.md R49) -/

/-- The same state with another source of unspecified bytes (log 3). -/
abbrev withEpoch (e : Nat) (s : State) : State := { s with bufEpoch := e }

/-- A byte that was written reads the same. -/
theorem bufRead_withEpoch (e : Nat) {k : Nat} (h : (memGet s.buf k).isSome = true) :
    bufRead (withEpoch e s) k = bufRead s k := by
  rw [bufRead, memGet_eq_bufRead h, Option.getD_some]

theorem respondReg_withEpoch (e : Nat) (n : Byte) (s : State) :
    respondReg n (withEpoch e s) = withEpoch e (respondReg n s) := by
  have hread : readReg (withEpoch e s) n = readReg s n := rfl
  rw [respondReg, respondReg, hread]
  cases readReg s n <;> rfl

theorem writeHeader_withEpoch (e : Nat) (n : EncState) (s : State) :
    writeHeader n (withEpoch e s) = withEpoch e (writeHeader n s) := by
  simp only [writeHeader]; split_ifs <;> rfl

theorem startFrame_withEpoch (e : Nat) (s : State) :
    startFrame (withEpoch e s) = withEpoch e (startFrame s) := by
  simp only [startFrame]; split_ifs <;> rfl

theorem putByte_withEpoch (e : Nat) (v : Byte) (s : State) :
    putByte v (withEpoch e s) = withEpoch e (putByte v s) := by
  simp only [putByte]; split_ifs <;> rfl

theorem storeByte_withEpoch (e : Nat) (b : Byte) (s : State) :
    storeByte b (withEpoch e s) = withEpoch e (storeByte b s) := by
  simp only [storeByte]; split_ifs <;> rfl

/-- The status tap reads payload bytes only. -/
theorem okResult_withEpoch (e : Nat)
    (h : ∀ k, k < (workLen s.work).toNat → (memGet s.buf k).isSome = true) :
    okResult (withEpoch e s) = okResult s := by
  by_cases hst : s.work.hdr[2] = Config.cmdStatus ∧ Config.statusMinLen ≤ (workLen s.work).toNat
  · have h3 := hst.2
    simp only [Config.statusMinLen] at h3
    simp only [okResult, bufRead_withEpoch e (h 0 (by omega)), bufRead_withEpoch e (h 1 (by omega)),
      bufRead_withEpoch e (h 2 (by omega))]
  · simp [okResult, hst]

theorem classify_withEpoch (e : Nat) (hs : BufInv s) : classify (withEpoch e s) = classify s := by
  simp only [classify]
  split_ifs with hshort hsync htrunc
  · rfl
  · rfl
  · rfl
  · exact okResult_withEpoch e (payload_stored hs (Nat.not_lt.1 htrunc))

theorem takeBeat_withEpoch (e : Nat) (b : Beat) (hs : Inv s) :
    takeBeat b (withEpoch e s) = withEpoch e (takeBeat b s) := by
  have hstore := storeByte_withEpoch e b.data s
  obtain ⟨d, last⟩ := b
  cases hp : s.res.pending with
  | true => rw [takeBeat_pending _ hp, takeBeat_pending (s := withEpoch e s) _ hp]; rfl
  | false =>
    cases last with
    | false => rw [takeBeat_accepted d hp, takeBeat_accepted (s := withEpoch e s) d hp, hstore]
    | true =>
      have hclass := classify_withEpoch e (storeByte_inv d hs hp).bufInv
      rw [takeBeat_last d hp, takeBeat_last (s := withEpoch e s) d hp, hstore, latch, hclass]
      rfl

/-- A pop reads a byte of the payload. -/
theorem execDecPay_withEpoch (e : Nat) (hs : Inv s) (h : execDecPay s = .next t) :
    execDecPay (withEpoch e s) = .next (withEpoch e t) := by
  obtain ⟨-, -, -, -, hok⟩ := hs
  simp only [execDecPay] at h ⊢
  split_ifs at h ⊢ with hpop <;> cases h
  · obtain ⟨-, hv, hlt⟩ := hpop
    rw [bufRead_withEpoch e (hok hv _ hlt)]
    rfl
  · rfl

theorem execDecAck_withEpoch (e : Nat) (h : execDecAck s = .next t) :
    execDecAck (withEpoch e s) = .next (withEpoch e t) := by
  simp only [execDecAck] at h ⊢
  split_ifs at h ⊢ <;> cases h <;> rfl

/-- A payload that can be written is expanded, whatever `buf` is. -/
theorem execPrintRow_withEpoch (e : Nat) {row : List Byte} (h : execPrintRow row s = .next t) :
    execPrintRow row (withEpoch e s) = .next (withEpoch e t) := by
  simp only [execPrintRow, expandFramer] at h ⊢
  split_ifs at h ⊢
  cases h; rfl

theorem execSendRaw_withEpoch (e : Nat) {cmd : RawCode} {p : List Byte}
    (h : execSendRaw cmd p s = .next t) :
    execSendRaw cmd p (withEpoch e s) = .next (withEpoch e t) := by
  simp only [execSendRaw, expandFrame] at h ⊢
  split_ifs at h ⊢
  cases h; rfl

/-- From a legal state an instruction does the same whatever the unspecified bytes are. -/
theorem exec_withEpoch (e : Nat) (hs : Inv s) (h : exec i s = .next t) :
    exec i (withEpoch e s) = .next (withEpoch e t) := by
  cases i
  case crcUpd b =>
    rw [exec_crcUpd] at h ⊢
    dsimp only
    generalize crc8Step s.crc b = c at h ⊢
    cases h; rfl
  case decPay => exact execDecPay_withEpoch e hs h
  case decAck => exact execDecAck_withEpoch e h
  case printRow row => exact execPrintRow_withEpoch e h
  case sendRaw cmd payload => exact execSendRaw_withEpoch e h
  all_goals obtain rfl := Host.Outcome.next.inj h
  case rd n => exact congrArg Host.Outcome.next (respondReg_withEpoch e n s)
  case crcRd => exact congrArg Host.Outcome.next (respondReg_withEpoch e 0x00 s)
  case encCmd | encType | encLenl | encLenh =>
    exact congrArg Host.Outcome.next (writeHeader_withEpoch e _ s)
  case encStart => exact congrArg Host.Outcome.next (startFrame_withEpoch e s)
  case encPut b => exact congrArg Host.Outcome.next (putByte_withEpoch e b s)
  case encPutr b => exact congrArg Host.Outcome.next (putByte_withEpoch e (rev8 b) s)
  case rxBeat b => exact congrArg Host.Outcome.next (takeBeat_withEpoch e ⟨b, false⟩ hs)
  case rxBeatLast b => exact congrArg Host.Outcome.next (takeBeat_withEpoch e ⟨b, true⟩ hs)
  all_goals rfl

/-- Settles O54: each transaction does the same with another source of unspecified bytes, and a reset
only counts on from there. -/
theorem noStepReadsAnUnspecifiedByte : Obligations.NoStepReadsAnUnspecifiedByte := by
  intro s t e hs h
  rcases step_cases h with ⟨hq, rfl⟩ | ⟨turns, hq, rfl⟩ | ⟨turns, hq, hh, rfl⟩ |
    ⟨turns, w, ws, i, hq, hh, hd, hx⟩ | ⟨turns, w, ws, why, hq, hh, hd, rfl⟩ | ⟨turns, hq, hr, rfl⟩ |
    ⟨turns, b, ws, hq, hr, rfl⟩
  · exact ⟨_, step_unscheduled (s := withEpoch e _) hq, rfl⟩
  · exact ⟨_, step_reset (s := withEpoch e s) hq, rfl⟩
  · exact ⟨_, step_host_idle (s := withEpoch e s) hq hh, rfl⟩
  · have hexec := exec_withEpoch e (s := { s with sched := turns, hostIn := ws }) hs hx
    exact ⟨_, (step_host_instr (s := withEpoch e s) hq hh hd).trans hexec, rfl⟩
  · exact ⟨_, step_host_illegal (s := withEpoch e s) hq hh hd, rfl⟩
  · exact ⟨_, step_transport_idle (s := withEpoch e s) hq hr, rfl⟩
  · have hbeat := takeBeat_withEpoch e b (s := { s with sched := turns, rxIn := ws }) hs
    exact ⟨_, (step_beat (s := withEpoch e s) hq hr).trans (congrArg _ hbeat), rfl⟩

end Sys2Proof.Machine
end

section
/-! Proofs of the family 20_memory.md: the two agents' transactions (R62, R64, R68), the TX stream
(R63), the pending result, and the operations that commute with the RX beats (R71). -/

namespace Sys2Proof.Machine

variable {s t : State} {i : Instr}

/-! ### The agents' transactions -/

/-- Settles O3: the host's word is taken and performed. -/
theorem stepRunsTheHostsInstruction : Obligations.StepRunsTheHostsInstruction :=
  fun _ _ _ _ _ => step_host_instr

/-- Settles O4: the transport's beat is taken and performed. -/
theorem stepRunsTheTransportsBeat : Obligations.StepRunsTheTransportsBeat :=
  fun _ _ _ _ hs hr => (step_beat hs hr).trans (exec_beatInstr _ _).symm

/-! ### The TX stream -/

/-- Whether the stream is framed depends on ENC and the stream only. -/
theorem TxFramed.congr (hs : TxFramed s) (henc : t.enc = s.enc) (htx : t.txOut = s.txOut) :
    TxFramed t := by
  unfold TxFramed at hs ⊢
  rwa [henc, htx]

/-- Only ENC operations write ENC and the TX stream. -/
theorem exec_keeps_enc_txOut (hi : isEncOp i = false) (h : exec i s = .next t) :
    t.enc = s.enc ∧ t.txOut = s.txOut := by
  rcases instr_groups i with hg | hg | hg | hg | hg | ⟨b, rfl⟩ | hg
  · rw [exec_crc_frame hg h]; exact ⟨rfl, rfl⟩
  · rw [exec_read_frame hg h]; exact ⟨rfl, rfl⟩
  · simp [hg] at hi
  · rw [exec_result_frame (.inl hg) h]; exact ⟨rfl, rfl⟩
  · rw [exec_result_frame (.inr hg) h]; exact ⟨rfl, rfl⟩
  · rw [exec_beatInstr] at h
    cases h
    rw [takeBeat_frame]; exact ⟨rfl, rfl⟩
  · rw [exec_wire_frame hg h]; exact ⟨rfl, rfl⟩

/-- While ENC is idle the stream is whole frames, and nothing is owed. -/
theorem txFramed_idle (h : s.enc.busy = false) :
    TxFramed s ↔ s.enc.rem = 0 ∧
      ∃ fs : List FrameParts, (∀ f ∈ fs, f.2.2.length ≤ 65535) ∧
        s.txOut = fs.flatMap frameBeats := by
  simp only [TxFramed, h, true_and, Bool.false_eq_true, false_and, or_false]
  exact ⟨fun ⟨fs, hfs, hrem, htx⟩ => ⟨hrem, fs, hfs, htx⟩,
    fun ⟨hrem, fs, hfs, htx⟩ => ⟨fs, hfs, hrem, htx⟩⟩

/-- While ENC is busy the stream ends in the header and the payload bytes emitted so far. -/
theorem txFramed_busy (h : s.enc.busy = true) :
    TxFramed s ↔ ∃ fs : List FrameParts, (∀ f ∈ fs, f.2.2.length ≤ 65535) ∧ ∃ p : List Byte,
      s.txOut = fs.flatMap frameBeats ++
        openBeats (headerBytes s.enc.cmd s.enc.typ s.enc.len ++ p) ∧
      p.length + s.enc.rem.toNat = s.enc.len.toNat ∧ 1 ≤ s.enc.rem.toNat ∧ s.enc.crc = crc8 p := by
  simp only [TxFramed, h, true_and, Bool.true_eq_false, false_and, false_or]

/-- A whole frame more. -/
theorem flatMap_frameBeats_snoc (fs : List FrameParts) (c y : Byte) (p : List Byte) :
    (fs ++ [(c, y, p)]).flatMap frameBeats =
      fs.flatMap frameBeats ++
        (openBeats (headerBytes c y (BitVec.ofNat 16 p.length) ++ p) ++ tailBeats (crc8 p)) := by
  simp [frameBeats, beatsOf_encodeFrame]

theorem payload_le_snoc {fs : List FrameParts} (hfs : ∀ f ∈ fs, f.2.2.length ≤ 65535) {c y : Byte}
    {p : List Byte} (hp : p.length ≤ 65535) : ∀ f ∈ fs ++ [(c, y, p)], f.2.2.length ≤ 65535 := by
  simpa [or_imp, forall_and, hp] using fun a b q hq => hfs (a, b, q) hq

/-- A header is written between frames only. -/
theorem writeHeader_txFramed {e : EncState} (hs : TxFramed s)
    (he : s.enc.rem = e.rem ∧ s.enc.crc = e.crc ∧ s.enc.busy = e.busy) :
    TxFramed (writeHeader e s) := by
  cases h : s.enc.busy with
  | true => rw [writeHeader_busy e h]; exact hs
  | false =>
    obtain ⟨hrem, -, hbusy⟩ := he
    rw [writeHeader_idle e h]
    rw [txFramed_idle h, hrem] at hs
    exact (txFramed_idle (hbusy.symm.trans h)).2 hs

/-- Between frames ENC.START puts out a whole empty frame, or the header of one with a payload. -/
theorem startFrame_txFramed (hs : TxFramed s) : TxFramed (startFrame s) := by
  cases h : s.enc.busy with
  | true => rw [startFrame_busy h]; exact hs
  | false =>
    obtain ⟨-, fs, hfs, htx⟩ := (txFramed_idle h).1 hs
    by_cases hl : s.enc.len = 0
    · rw [startFrame_empty h hl]
      refine (txFramed_idle ?_).2
        ⟨rfl, fs ++ [(s.enc.cmd, s.enc.typ, [])], payload_le_snoc hfs (by simp), ?_⟩
      · exact h
      · rw [flatMap_frameBeats_snoc, ← htx]
        simp
    · rw [startFrame_open h hl]
      refine (txFramed_busy rfl).2 ⟨fs, hfs, [], ?_, by simp, ?_, rfl⟩
      · simp [htx]
      · show 1 ≤ s.enc.len.toNat
        bv_omega

/-- `enc_crc` follows the payload bytes emitted; with the last one owed the frame is whole. -/
theorem putByte_txFramed (v : Byte) (hs : TxFramed s) : TxFramed (putByte v s) := by
  cases h : s.enc.busy with
  | false => rw [putByte_idle v h]; exact hs
  | true =>
    obtain ⟨fs, hfs, p, htx, hlen, hpos, hcrc⟩ := (txFramed_busy h).1 hs
    have hcrc' : crc8Step s.enc.crc v = crc8 (p ++ [v]) := by rw [hcrc, crc8_append_singleton]
    by_cases hr : s.enc.rem = 1
    · have hwhole : (p ++ [v]).length = s.enc.len.toNat := by simp [← hlen, hr]
      have hmax : (p ++ [v]).length ≤ 65535 := by rw [hwhole]; have := s.enc.len.isLt; omega
      rw [putByte_last v h hr]
      refine (txFramed_idle rfl).2
        ⟨rfl, fs ++ [(s.enc.cmd, s.enc.typ, p ++ [v])], payload_le_snoc hfs hmax, ?_⟩
      rw [flatMap_frameBeats_snoc, hwhole, BitVec.ofNat_toNat, BitVec.setWidth_eq, ← hcrc']
      simp [htx, openBeats]
    · rw [putByte_more v h hr]
      refine (txFramed_busy ?_).2 ⟨fs, hfs, p ++ [v], ?_, ?_, ?_, ?_⟩
      · exact h
      · simp [htx, openBeats]
      · show (p ++ [v]).length + (s.enc.rem - 1).toNat = s.enc.len.toNat
        rw [List.length_append, List.length_singleton]
        bv_omega
      · show 1 ≤ (s.enc.rem - 1).toNat
        bv_omega
      · simpa only using hcrc'

theorem exec_txFramed (h : exec i s = .next t) (hs : TxFramed s) : TxFramed t := by
  cases hi : isEncOp i with
  | false =>
    obtain ⟨henc, htx⟩ := exec_keeps_enc_txOut hi h
    exact hs.congr henc htx
  | true =>
    rcases exec_enc_op hi h with ⟨e, rfl, he⟩ | rfl | ⟨v, rfl⟩
    · exact writeHeader_txFramed hs he
    · exact startFrame_txFramed hs
    · exact putByte_txFramed v hs

/-- A reset between frames leaves the frames sent (70_reset_and_hazards.md R301). -/
theorem resetBlock_txFramed (h : s.enc.busy = false) (hs : TxFramed s) :
    TxFramed (resetBlock s) :=
  (txFramed_idle (s := resetBlock s) rfl).2 ⟨rfl, ((txFramed_idle h).1 hs).2⟩

/-- Settles O28: only ENC operations emit beats, and each of them keeps the stream framed. -/
theorem txStreamStaysWholeFrames : Obligations.TxStreamStaysWholeFrames := by
  intro s t hs hrst h
  rcases step_cases h with ⟨-, rfl⟩ | ⟨turns, hq, rfl⟩ | ⟨turns, -, -, rfl⟩ |
    ⟨turns, w, ws, i, -, -, -, hx⟩ | ⟨turns, w, ws, why, -, -, -, rfl⟩ | ⟨turns, -, -, rfl⟩ |
    ⟨turns, b, ws, -, -, rfl⟩
  · exact hs
  · have hidle : s.enc.busy = false := Bool.eq_false_iff.2 fun hb => hrst hb (by rw [hq]; rfl)
    exact resetBlock_txFramed (s := { s with sched := turns }) hidle hs
  · exact hs
  · exact exec_txFramed hx hs
  · exact hs
  · exact hs
  · exact exec_txFramed (exec_beatInstr b _) hs

/-! ### The pending result -/

/-- Whatever its parts, a frame stands for a wire command. -/
theorem commandOf_format (c y : Byte) (p : List Byte) : (commandOf c y p).format = .frame := by
  unfold commandOf
  split
  · rfl
  · split
    · rfl
    · split
      · split_ifs <;> rfl
      · split_ifs <;> rfl
      · split_ifs <;> rfl
      · rfl

theorem decodeFrame_format {bytes : List Byte} (h : decodeFrame bytes = .ok i) :
    i.format = .frame := by
  unfold decodeFrame at h
  split at h
  · cases h
  · cases h
  · cases h
  · split_ifs at h
    cases h
    exact commandOf_format _ _ _

/-- The host presents no beats. -/
theorem decodeHost_not_beat {w : HostWord} (h : decodeHost w = .ok i) : i.format ≠ .beat := by
  cases w with
  | op w => rw [decodeOp_format h]; decide
  | frame bytes => rw [decodeFrame_format h]; decide

/-- An operation of the host is presented as an operation word. -/
theorem decodeHost_op {w : HostWord} (h : decodeHost w = .ok i) (hi : i.format = .op) :
    ∃ v, w = .op v ∧ decodeOp v = .ok i := by
  cases w with
  | op v => exact ⟨v, rfl, h⟩
  | frame bytes => rw [decodeFrame_format h] at hi; cases hi

/-- The result of `s` still stands in `t`: `dec_rp` may have moved on by one, and the payload, the
working state and the waiting beats are as they were. -/
def ResultHeld (s t : State) : Prop :=
  t.buf = s.buf ∧ t.work = s.work ∧ t.rxIn = s.rxIn ∧
    t.res = { s.res with rp := t.res.rp } ∧ (t.res.rp = s.res.rp ∨ t.res.rp = s.res.rp + 1)

/-- What leaves DEC and the waiting beats alone holds the result. -/
theorem resultHeld_of_dec_unchanged (hbuf : t.buf = s.buf) (hwork : t.work = s.work)
    (hrx : t.rxIn = s.rxIn) (hres : t.res = s.res) : ResultHeld s t :=
  ⟨hbuf, hwork, hrx, by rw [hres], .inl (by rw [hres])⟩

/-- DEC.PAY pops a byte, or is turned away. -/
theorem exec_decPay_resultHeld (h : exec .decPay s = .next t) : ResultHeld s t := by
  rcases exec_decPay_cases s with ⟨-, -, -, he⟩ | ⟨-, he⟩ <;> rw [he] at h <;> cases h
  · exact ⟨rfl, rfl, rfl, rfl, .inr rfl⟩
  · exact resultHeld_of_dec_unchanged rfl rfl rfl rfl

/-- Of the host's instructions only DEC.ACK releases the result. -/
theorem exec_resultHeld (hbeat : i.format ≠ .beat) (hack : i ≠ .decAck) (h : exec i s = .next t) :
    ResultHeld s t := by
  rcases instr_groups i with hg | hg | hg | rfl | rfl | ⟨b, rfl⟩ | hg
  · rw [exec_crc_frame hg h]; exact resultHeld_of_dec_unchanged rfl rfl rfl rfl
  · rw [exec_read_frame hg h]; exact resultHeld_of_dec_unchanged rfl rfl rfl rfl
  · rw [exec_enc_frame hg h]; exact resultHeld_of_dec_unchanged rfl rfl rfl rfl
  · exact exec_decPay_resultHeld h
  · exact absurd rfl hack
  · exact absurd (by unfold beatInstr; split <;> rfl) hbeat
  · rw [exec_wire_frame hg h]; exact resultHeld_of_dec_unchanged rfl rfl rfl rfl

theorem exec_decAck_pending (hp : s.res.pending = true) (h : exec .decAck s = .next t) :
    t.res = State.reset.res ∧ t.buf = s.buf := by
  rcases exec_decAck_cases s with ⟨-, he⟩ | ⟨hn, -⟩
  · rw [he] at h; cases h; exact ⟨rfl, rfl⟩
  · simp [hp] at hn

/-- Settles O44: DEC.ACK releases; every other host word leaves the result; a beat waits. -/
theorem pendingResultIsHeld : Obligations.PendingResultIsHeld := by
  intro s t hp h hrst
  rcases step_cases h with ⟨-, rfl⟩ | ⟨turns, hq, rfl⟩ | ⟨turns, -, -, rfl⟩ |
    ⟨turns, w, ws, i, hq, hh, hd, hx⟩ | ⟨turns, w, ws, why, -, -, -, rfl⟩ | ⟨turns, -, -, rfl⟩ |
    ⟨turns, b, ws, -, hr, rfl⟩
  · exact .inr (resultHeld_of_dec_unchanged rfl rfl rfl rfl)
  · exact absurd (by rw [hq]; rfl) hrst
  · exact .inr (resultHeld_of_dec_unchanged rfl rfl rfl rfl)
  · by_cases hack : i = .decAck
    · subst hack
      obtain ⟨v, rfl, hv⟩ := decodeHost_op hd rfl
      obtain ⟨hres, hbuf⟩ :=
        exec_decAck_pending (s := { s with sched := turns, hostIn := ws }) hp hx
      exact .inl ⟨hres, hbuf, v, ws, by rw [hq]; rfl, hh, hv⟩
    · exact .inr (exec_resultHeld (s := { s with sched := turns, hostIn := ws })
        (decodeHost_not_beat hd) hack hx)
  · exact .inr (resultHeld_of_dec_unchanged rfl rfl rfl rfl)
  · exact .inr (resultHeld_of_dec_unchanged rfl rfl rfl rfl)
  · rw [takeBeat_pending (s := { s with sched := turns, rxIn := ws }) b hp]
    exact .inr (resultHeld_of_dec_unchanged rfl rfl hr.symm rfl)

/-! ### Host computations and RX beats -/

/-- The CRC, BREV and ENC operations. -/
abbrev IsComputation (i : Instr) : Prop :=
  i = .crcClr ∨ (∃ x, i = .crcUpd x) ∨ i = .crcRd ∨ (∃ x, i = .brev x) ∨ isEncOp i = true

/-- `s` with what a beat may change taken from `d`. -/
abbrev withDec (d s : State) : State :=
  { s with work := d.work, res := d.res, buf := d.buf, rxIn := d.rxIn }

theorem exec_computation_next (hi : IsComputation i) (s : State) : ∃ t, exec i s = .next t := by
  rcases hi with rfl | ⟨x, rfl⟩ | rfl | ⟨x, rfl⟩ | hi
  · exact ⟨_, rfl⟩
  · exact ⟨_, exec_crcUpd x s⟩
  · exact ⟨_, rfl⟩
  · exact ⟨_, rfl⟩
  · cases i <;> simp only [isEncOp, Bool.false_eq_true] at hi <;> exact ⟨_, rfl⟩

/-- A computation changes nothing that a beat reads. -/
theorem exec_computation_frame (hi : IsComputation i) (h : exec i s = .next t) :
    t = { s with crc := t.crc, enc := t.enc, txOut := t.txOut, rspOut := t.rspOut } := by
  rcases hi with hi | hi | hi | hi | hi
  · rw [exec_crc_frame (.inl hi) h]
  · rw [exec_crc_frame (.inr hi) h]
  · rw [exec_read_frame (.inl hi) h]
  · rw [exec_read_frame (.inr (.inr hi)) h]
  · rw [exec_enc_frame hi h]

theorem writeHeader_withDec (d : State) (e : EncState) (s : State) :
    writeHeader e (withDec d s) = withDec d (writeHeader e s) := by
  simp only [writeHeader]; split_ifs <;> rfl

theorem startFrame_withDec (d s : State) :
    startFrame (withDec d s) = withDec d (startFrame s) := by
  simp only [startFrame]; split_ifs <;> rfl

theorem putByte_withDec (d : State) (v : Byte) (s : State) :
    putByte v (withDec d s) = withDec d (putByte v s) := by
  simp only [putByte]; split_ifs <;> rfl

/-- A computation reads nothing that a beat may change. -/
theorem exec_computation_withDec (d : State) (hi : IsComputation i) (h : exec i s = .next t) :
    exec i (withDec d s) = .next (withDec d t) := by
  rcases hi with rfl | ⟨x, rfl⟩ | rfl | ⟨x, rfl⟩ | hi
  · cases h; rfl
  · rw [exec_crcUpd] at h ⊢
    dsimp only
    generalize crc8Step s.crc x = c at h ⊢
    cases h; rfl
  · cases h; rfl
  · cases h; rfl
  · cases i <;> simp only [isEncOp, Bool.false_eq_true] at hi <;>
      obtain rfl := Host.Outcome.next.inj h
    case encStart => exact congrArg Host.Outcome.next (startFrame_withDec d s)
    case encPut b => exact congrArg Host.Outcome.next (putByte_withDec d b s)
    case encPutr b => exact congrArg Host.Outcome.next (putByte_withDec d (rev8 b) s)
    all_goals exact congrArg Host.Outcome.next (writeHeader_withDec d _ s)

/-- A beat does the same to DEC whatever CRC, ENC and the streams hold. -/
theorem takeBeat_of_computation (b : Beat)
    (h : t = { s with crc := t.crc, enc := t.enc, txOut := t.txOut, rspOut := t.rspOut }) :
    takeBeat b t = withDec (takeBeat b s) t := by
  rw [h]
  simp only [takeBeat, storeByte]
  split_ifs <;> rfl

/-- Settles O48: a computation and a beat read and write disjoint parts of the state. -/
theorem hostComputationCommutesWithRxBeats : Obligations.HostComputationCommutesWithRxBeats := by
  intro i b s hi
  obtain ⟨t, ht⟩ := exec_computation_next hi s
  have hbeat := takeBeat_of_computation b (exec_computation_frame hi ht)
  have hswap : exec i (takeBeat b s) = .next (takeBeat b t) := by
    rw [hbeat, takeBeat_frame b s]
    exact exec_computation_withDec (takeBeat b s) hi ht
  exact ⟨takeBeat b t, by simp [execAll, ht], by simp [execAll, hswap]⟩

end Sys2Proof.Machine
end

section
/-! Proofs of the family 30_encoding.md: the opcode map (R91, R96 to R98), the round trips of operation
words (R91, R97), beats (R93) and frames (R94, R101, R102), and the words of DEC.DRAIN (R104). -/

namespace Sys2Proof.Machine

variable {s : State} {i : Instr}

/-! ### Operation words -/

/-- Settles O8: the words row by row. -/
theorem opcodeMapWordsDecode : Obligations.OpcodeMapWordsDecode :=
  ⟨decodeOp_rd 0x10, decodeOp_crcClr 0xAB, decodeOp_crcUpd 0x20, decodeOp_brev 0xCA,
    decodeOp_encCmd 0xA1, decodeOp_encType 0x07, decodeOp_encLenl 0x02, decodeOp_encLenh 0x01,
    decodeOp_encStart 0xCD, decodeOp_encPut 0x20, decodeOp_encPutr 0x80, decodeOp_decPay 0xFF,
    decodeOp_decAck 0x01, decodeOp_rd 0x00⟩

/-- Settles O5: the word decodes to no operation, whatever the state. -/
theorem illegalOpcodeIsOpError : Obligations.IllegalOpcodeIsOpError :=
  fun _ _ opcode imm _ hop hs hh => step_host_illegal hs hh (decodeOp_illegal opcode imm hop)

/-- Settles O12: the rows of the four opcodes do not read `imm8`. -/
theorem ignoredOperandSelectsTheSameOperation :
    Obligations.IgnoredOperandSelectsTheSameOperation := by
  intro opcode imm imm' hop
  simp only [List.mem_cons, List.not_mem_nil, or_false] at hop
  rcases hop with rfl | rfl | rfl | rfl
  · exact ⟨.crcClr, decodeOp_crcClr imm, decodeOp_crcClr imm', rfl⟩
  · exact ⟨.encStart, decodeOp_encStart imm, decodeOp_encStart imm', rfl⟩
  · exact ⟨.decPay, decodeOp_decPay imm, decodeOp_decPay imm', rfl⟩
  · exact ⟨.decAck, decodeOp_decAck imm, decodeOp_decAck imm', rfl⟩

/-- The word of `CRC.RD` is the word of `RD 0x00` (30_encoding.md R101). -/
theorem encode_rd_or_crcRd (n : Byte) :
    encode (if n = 0x00#8 then .crcRd else .rd n) = .host (.op (0x01#8 ++ n)) := by
  split
  · next hn => rw [hn]; rfl
  · rfl

/-- Settles O11: a word that decodes has an opcode of the map, and each row keeps its operand or ignores
it. -/
theorem encodeOfDecodeOpIsTheWord : Obligations.EncodeOfDecodeOpIsTheWord := by
  intro opcode imm i h
  by_cases hop : opcode ∈ opcodes
  · simp only [opcodes, List.mem_cons, List.not_mem_nil, or_false] at hop
    rcases hop with rfl | rfl | rfl | rfl | rfl | rfl | rfl | rfl | rfl | rfl | rfl | rfl | rfl
    · rw [decodeOp_rd] at h; cases h; exact .inl (encode_rd_or_crcRd imm)
    · rw [decodeOp_crcClr] at h; cases h; exact .inr ⟨rfl, .inl rfl⟩
    · rw [decodeOp_crcUpd] at h; cases h; exact .inl rfl
    · rw [decodeOp_brev] at h; cases h; exact .inl rfl
    · rw [decodeOp_encCmd] at h; cases h; exact .inl rfl
    · rw [decodeOp_encType] at h; cases h; exact .inl rfl
    · rw [decodeOp_encLenl] at h; cases h; exact .inl rfl
    · rw [decodeOp_encLenh] at h; cases h; exact .inl rfl
    · rw [decodeOp_encStart] at h; cases h; exact .inr ⟨rfl, .inr (.inl rfl)⟩
    · rw [decodeOp_encPut] at h; cases h; exact .inl rfl
    · rw [decodeOp_encPutr] at h; cases h; exact .inl rfl
    · rw [decodeOp_decPay] at h; cases h; exact .inr ⟨rfl, .inr (.inr (.inl rfl))⟩
    · rw [decodeOp_decAck] at h; cases h; exact .inr ⟨rfl, .inr (.inr (.inr rfl))⟩
  · rw [decodeOp_illegal opcode imm hop] at h
    cases h

/-! ### Frames -/

@[simp] theorem le16_half (lo hi : Byte) : le16 (half lo hi) = [lo, hi] := by simp [le16]

theorem declaredLength_lt (raw : List Byte) : declaredLength raw < 65536 := by
  have := (byteAt raw 4).isLt
  have := (byteAt raw 5).isLt
  unfold declaredLength; omega

/-- The length field of a frame is the number of its payload bytes (42_enc.md R172). -/
theorem declaredLength_encodeFrame (c y : Byte) {p : List Byte} (hp : p.length ≤ 65535) :
    declaredLength (encodeFrame c y p) = p.length := by
  have hlo : byteAt (encodeFrame c y p) 4 = lowByte (BitVec.ofNat 16 p.length) := rfl
  have hhi : byteAt (encodeFrame c y p) 5 = highByte (BitVec.ofNat 16 p.length) := rfl
  rw [declaredLength, hlo, hhi, lowByte_toNat, highByte_toNat, BitVec.toNat_ofNat]
  omega

theorem byteAt_append_right (a b : List Byte) (k : Nat) :
    byteAt (a ++ b) (a.length + k) = byteAt b k := by
  simp [byteAt, List.getElem?_append_right]

/-- After the header and the payload a frame has its checksum and the end marker. -/
theorem byteAt_encodeFrame_tail (c y : Byte) (p : List Byte) :
    byteAt (encodeFrame c y p) (6 + p.length) = crc8 p ∧
    byteAt (encodeFrame c y p) (6 + p.length + 1) = Config.endMarker := by
  have hpre : (headerBytes c y (BitVec.ofNat 16 p.length) ++ p).length = 6 + p.length := by
    rw [List.length_append]; rfl
  rw [encodeFrame_eq, ← hpre]
  exact ⟨byteAt_append_right _ _ 0, byteAt_append_right _ _ 1⟩

/-- A frame parses to its parts, with a checksum that is right (42_enc.md R177). -/
theorem decodeMessage_encodeFrame (c y : Byte) {p : List Byte} (hp : p.length ≤ 65535) :
    decodeMessage (encodeFrame c y p) =
      .ok { command := c, typeByte := y, payloadLength := BitVec.ofNat 16 p.length, payload := p,
            checksumReceived := crc8 p, checksumExpected := crc8 p, crcValid := true,
            endMarker := Config.endMarker } := by
  obtain ⟨hsum, hend⟩ := byteAt_encodeFrame_tail c y p
  have hlen := encodeFrame_length c y p
  have hpay : ((encodeFrame c y p).drop 6).take p.length = p := by
    rw [encodeFrame_eq]; simp [headerBytes]
  have hsync : ¬ (byteAt (encodeFrame c y p) 0 ≠ Config.sync0 ∨
      byteAt (encodeFrame c y p) 1 ≠ Config.sync1) := by
    rintro (h | h) <;> exact h rfl
  rw [decodeMessage, declaredLength_encodeFrame c y hp, if_neg (by simp [hlen]), if_neg hsync,
    if_neg (by simp [hlen])]
  simp only [Config.hdrLen, hpay, hsum, hend, decide_true]
  rfl

/-- A frame is read as the command of its parts. -/
theorem decodeFrame_encodeFrame (c y : Byte) {p : List Byte} (hp : p.length ≤ 65535) :
    decodeFrame (encodeFrame c y p) = .ok (commandOf c y p) := by
  simp [decodeFrame, decodeMessage_encodeFrame c y hp]

/-- The bytes of a message from place `m` on, one by one. -/
theorem take_drop_eq_map_byteAt {raw : List Byte} {m k : Nat} (h : m + k ≤ raw.length) :
    (raw.drop m).take k = (List.range k).map (fun j => byteAt raw (m + j)) := by
  have hlen : ((raw.drop m).take k).length = k := by
    rw [List.length_take, List.length_drop]; omega
  refine List.ext_getElem (by rw [hlen, List.length_map, List.length_range]) fun j hj _ => ?_
  have hlt : m + j < raw.length := by omega
  simp [byteAt, hlt]

/-- A message is its six header bytes, a body, and two bytes after it. -/
theorem eq_header_body_tail {raw : List Byte} {n : Nat} (h : raw.length = 8 + n) :
    raw = [byteAt raw 0, byteAt raw 1, byteAt raw 2, byteAt raw 3, byteAt raw 4, byteAt raw 5] ++
      (raw.drop 6).take n ++ [byteAt raw (6 + n), byteAt raw (6 + n + 1)] := by
  have hhead := take_drop_eq_map_byteAt (raw := raw) (m := 0) (k := 6) (by omega)
  have htail := take_drop_eq_map_byteAt (raw := raw) (m := 6 + n) (k := 2) (by omega)
  calc raw = raw.take 6 ++ raw.drop 6 := (List.take_append_drop 6 raw).symm
    _ = raw.take 6 ++ ((raw.drop 6).take n ++ raw.drop (6 + n)) := by
      rw [← List.drop_drop, List.take_append_drop n]
    _ = raw.take 6 ++ (raw.drop 6).take n ++ (raw.drop (6 + n)).take 2 := by
      rw [List.take_of_length_le (l := raw.drop (6 + n)) (by rw [List.length_drop]; omega),
        List.append_assoc]
    _ = _ := by simpa [List.range_succ] using congrArg₂ (· ++ (raw.drop 6).take n ++ ·) hhead htail

theorem ofNat_declaredLength (raw : List Byte) :
    BitVec.ofNat 16 (declaredLength raw) = half (byteAt raw 4) (byteAt raw 5) := by
  rw [declaredLength, ← half_toNat, BitVec.ofNat_toNat, BitVec.setWidth_eq]

/-- What `decode` extracts when it answers a frame: the sync bytes and the length are right, and the
parts stand in their places (43_dec.md R190). -/
theorem decodeMessage_ok {raw : List Byte} {f : ParsedFrame} (h : decodeMessage raw = .ok f) :
    byteAt raw 0 = Config.sync0 ∧ byteAt raw 1 = Config.sync1 ∧
    f.command = byteAt raw 2 ∧ f.typeByte = byteAt raw 3 ∧
    f.payload.length = declaredLength raw ∧ 8 + f.payload.length ≤ raw.length ∧
    f.payload = (raw.drop 6).take f.payload.length ∧
    f.crcValid = decide (crc8 f.payload = byteAt raw (6 + f.payload.length)) ∧
    f.endMarker = byteAt raw (6 + f.payload.length + 1) := by
  unfold decodeMessage at h
  split_ifs at h with hshort hsync htrunc
  obtain ⟨h0, h1⟩ := not_or.1 hsync
  have hle : 8 + declaredLength raw ≤ raw.length := Nat.not_lt.1 htrunc
  have hlen : ((raw.drop 6).take (declaredLength raw)).length = declaredLength raw := by
    rw [List.length_take, List.length_drop]; omega
  cases h
  simp only [Config.hdrLen, hlen]
  exact ⟨not_not.1 h0, not_not.1 h1, trivial, trivial, trivial, hle, trivial, trivial, trivial⟩

/-- Strict decoding (log 6): bytes that are read as a wire command are a frame whose payload length fits
its field, and the command is that of the frame's parts. -/
theorem decodeFrame_ok {bytes : List Byte} (h : decodeFrame bytes = .ok i) :
    ∃ c y p, p.length ≤ 65535 ∧ bytes = encodeFrame c y p ∧ i = commandOf c y p := by
  unfold decodeFrame at h
  split at h
  · cases h
  · cases h
  · cases h
  · next f hf =>
    split_ifs at h with hlong hcrc hend
    cases h
    obtain ⟨h0, h1, hcmd, htyp, hlen, hle, hpay, hvalid, hmark⟩ := decodeMessage_ok hf
    have hlt := declaredLength_lt bytes
    have hexact : bytes.length = 8 + f.payload.length :=
      Nat.le_antisymm (Nat.not_lt.1 hlong) hle
    have hsum : byteAt bytes (6 + f.payload.length) = crc8 f.payload := by
      simpa [hvalid, eq_comm] using hcrc
    refine ⟨f.command, f.typeByte, f.payload, by omega, ?_, rfl⟩
    calc bytes = _ := eq_header_body_tail hexact
      _ = encodeFrame f.command f.typeByte f.payload := by
        rw [encodeFrame_eq, headerBytes, ← hpay, hsum, ← hmark, not_not.1 hend, h0, h1, ← hcmd,
          ← htyp, hlen, ofNat_declaredLength, lowByte_half, highByte_half]

/-! ### The wire commands -/

/-- A frame's command has the frame's parts. -/
theorem wireParts_commandOf (c y : Byte) (p : List Byte) :
    wireParts (commandOf c y p) = some (c, y, p) := by
  unfold commandOf
  split
  · rfl
  · split
    · next htyp hrow => rw [hrow, not_not.1 htyp, wireParts, map_rev8_map_rev8]
    · split
      · split_ifs <;> simp_all [wireParts]
      · split_ifs <;> simp_all [wireParts]
      · split_ifs <;> simp_all [wireParts]
      · rfl

/-- Of a wire command only the payload's length is checked (42_enc.md R172). -/
theorem wellFormed_iff_of_wireParts {c y : Byte} {p : List Byte}
    (h : wireParts i = some (c, y, p)) : WellFormed i ↔ p.length ≤ 65535 := by
  cases i <;> cases h
  all_goals simp [WellFormed, Instr.wf, le16]

/-- The frame of a wire command's parts is read as the command itself, but for SENDRAW. -/
theorem commandOf_wireParts {c y : Byte} {p : List Byte} (h : wireParts i = some (c, y, p)) :
    commandOf c y p = i.canonical := by
  cases i <;> cases h
  case retract steps => exact congrArg Instr.retract (half_low_high steps)
  case feed steps => exact congrArg Instr.feed (half_low_high steps)
  case setEnergy energy => exact congrArg Instr.setEnergy (half_low_high energy)
  case printRow row => exact congrArg Instr.printRow (map_rev8_map_rev8 row)
  all_goals rfl

theorem encode_of_wireParts {c y : Byte} {p : List Byte} (h : wireParts i = some (c, y, p)) :
    encode i = .host (.frame (encodeFrame c y p)) := by
  cases i <;> cases h <;> rfl

/-- Settles O13: the bytes are a frame, and the command read from it has its parts. -/
theorem decodedFrameIsTheCommandsFrame : Obligations.DecodedFrameIsTheCommandsFrame := by
  intro bytes i h
  obtain ⟨c, y, p, hp, rfl, rfl⟩ := decodeFrame_ok h
  have hparts := wireParts_commandOf c y p
  exact ⟨(wellFormed_iff_of_wireParts hparts).2 hp, encode_of_wireParts hparts⟩

/-! ### The round trip of an instruction -/

theorem encode_of_opEncoding {w : OpWord} (h : opEncoding i = some w) :
    encode i = .host (.op w) := by
  cases i <;> cases h <;> rfl

/-- Each operation's word is a word of its row. -/
theorem decodeOp_opEncoding {w : OpWord} (h : opEncoding i = some w) :
    decodeOp w = .ok i.canonical := by
  cases i <;> cases h
  case rd n => exact decodeOp_rd n
  case crcRd => exact decodeOp_rd 0x00
  case crcClr => exact decodeOp_crcClr 0x00
  case crcUpd b => exact decodeOp_crcUpd b
  case brev b => exact decodeOp_brev b
  case encCmd c => exact decodeOp_encCmd c
  case encType t => exact decodeOp_encType t
  case encLenl b => exact decodeOp_encLenl b
  case encLenh b => exact decodeOp_encLenh b
  case encStart => exact decodeOp_encStart 0x00
  case encPut b => exact decodeOp_encPut b
  case encPutr b => exact decodeOp_encPutr b
  case decPay => exact decodeOp_decPay 0x00
  case decAck => exact decodeOp_decAck 0x00

theorem encode_beatInstr (b : Beat) : encode (beatInstr b) = .rx b.word := by
  obtain ⟨d, last⟩ := b
  cases last <;> rfl

theorem canonical_beatInstr (b : Beat) : (beatInstr b).canonical = beatInstr b := by
  obtain ⟨d, last⟩ := b
  cases last <;> rfl

/-- Every instruction is an operation, a beat or a wire command (30_encoding.md R101). -/
theorem instr_encodings (i : Instr) :
    (∃ w, opEncoding i = some w) ∨ (∃ b, i = beatInstr b) ∨
      ∃ c y p, wireParts i = some (c, y, p) := by
  cases hf : i.format with
  | op => left; cases i <;> simp [Instr.format, opEncoding] at hf ⊢
  | beat => exact .inr (.inl (eq_beatInstr_of_format hf))
  | frame => right; right; cases i <;> simp [Instr.format, wireParts] at hf ⊢

/-- The two rows that share words with others (log 6). -/
theorem canonical_cases (i : Instr) :
    i.canonical = i ∨ i = .rd 0x00 ∨ ∃ c p, i = .sendRaw ⟨c, 0x00⟩ p := by
  cases i
  case rd n =>
    by_cases hn : n = 0x00
    · exact .inr (.inl (congrArg _ hn))
    · exact .inl (if_neg hn)
  case sendRaw cmd p =>
    obtain ⟨c, y⟩ := cmd
    by_cases hy : y = 0x00
    · exact .inr (.inr ⟨c, p, by rw [hy]⟩)
    · exact .inl (if_pos hy)
  all_goals exact .inl rfl

theorem decode_encode (hi : WellFormed i) : decode (encode i) = .ok i.canonical := by
  rcases instr_encodings i with ⟨w, hw⟩ | ⟨b, rfl⟩ | ⟨c, y, p, hp⟩
  · rw [encode_of_opEncoding hw]
    exact decodeOp_opEncoding hw
  · rw [encode_beatInstr, canonical_beatInstr, decode, decodeBeat_word]
  · rw [encode_of_wireParts hp, ← commandOf_wireParts hp]
    exact decodeFrame_encodeFrame c y ((wellFormed_iff_of_wireParts hp).1 hi)

/-- Settles O9: words, beats and frames each have their round trip. -/
theorem decodeOfEncodeIsTheInstruction : Obligations.DecodeOfEncodeIsTheInstruction :=
  fun i hi => ⟨decode_encode hi, canonical_cases i⟩

/-! ### The words of DEC.DRAIN -/

/-- What comes after a run goes on from where it ended. -/
theorem execAll_append {is js : List Instr} {t : State} (h : execAll is s = .next t) :
    execAll (is ++ js) s = execAll js t := by
  induction is generalizing s with
  | nil => cases h; rfl
  | cons i is ih =>
    rw [List.cons_append, execAll]
    rw [execAll] at h
    cases hu : exec i s <;> rw [hu] at h
    case next u => exact ih h
    case fault | refused => cases h

/-- The state after DEC.PAY has popped the bytes `bs` (43_dec.md R200). -/
def popped (bs : List Byte) (s : State) : State :=
  { s with
    res := { s.res with rp := s.res.rp + BitVec.ofNat 16 bs.length }
    rspOut := s.rspOut ++ bs.map (fun b => ⟨false, b⟩) }

theorem popped_nil (s : State) : popped [] s = s := by simp [popped]

theorem popped_cons (b : Byte) (bs : List Byte) (s : State) :
    popped (b :: bs) s = popped bs (popped [b] s) := by
  have hrp : s.res.rp + BitVec.ofNat 16 (bs.length + 1) =
      s.res.rp + BitVec.ofNat 16 1 + BitVec.ofNat 16 bs.length := by
    rw [Nat.add_comm, BitVec.ofNat_add, BitVec.add_assoc]
  simp [popped, hrp]

/-- A payload byte that is in `buf` is popped. -/
theorem exec_decPay_popped {b : Byte} (hp : s.res.pending = true) (hv : s.res.verdict = .ok)
    (hlt : s.res.rp.toNat < s.res.len.toNat) (hb : memGet s.buf s.res.rp.toNat = some b) :
    exec .decPay s = .next (popped [b] s) := by
  rcases exec_decPay_cases s with ⟨-, -, -, he⟩ | ⟨hn, -⟩
  · rw [he, bufRead, hb]; rfl
  · exact absurd ⟨hp, hv, hlt⟩ hn

/-- DEC.PAY once for each byte pops the bytes from `dec_rp` on. -/
theorem execAll_decPay_popped (payload : List Byte) (hp : s.res.pending = true)
    (hv : s.res.verdict = .ok) (hlen : s.res.rp.toNat + payload.length ≤ s.res.len.toNat)
    (hbuf : ∀ (k : Nat) (h : k < payload.length),
      memGet s.buf (s.res.rp.toNat + k) = some payload[k]) :
    execAll (List.replicate payload.length .decPay) s = .next (popped payload s) := by
  induction payload generalizing s with
  | nil => rw [popped_nil]; rfl
  | cons b rest ih =>
    rw [List.length_cons] at hlen
    have hpop : exec .decPay s = .next (popped [b] s) :=
      exec_decPay_popped hp hv (by omega) (hbuf 0 (Nat.succ_pos _))
    have hrp : (popped [b] s).res.rp.toNat = s.res.rp.toNat + 1 := by
      show (s.res.rp + 1).toNat = _
      bv_omega
    rw [List.length_cons, List.replicate_succ, popped_cons]
    simp only [execAll, hpop]
    refine ih hp hv ?_ fun k hk => ?_
    · rw [hrp]
      show _ ≤ s.res.len.toNat
      omega
    · rw [hrp, Nat.add_assoc, Nat.add_comm 1]
      exact hbuf (k + 1) (Nat.succ_lt_succ hk)

/-- DEC.ACK releases a pending result (43_dec.md R202). -/
theorem exec_decAck_release (hp : s.res.pending = true) :
    exec .decAck s = .next (respondOk 0x00 (releaseResult s)) := by
  rcases exec_decAck_cases s with ⟨-, he⟩ | ⟨hn, -⟩
  · exact he
  · simp [hp] at hn

/-- Settles O42: the payload is popped byte by byte, and DEC.ACK releases the result. -/
theorem drainAnswersTheWholePayload : Obligations.DrainAnswersTheWholePayload := by
  intro s payload hp hv hrp hlen hbuf
  have hzero : s.res.rp.toNat = 0 := by rw [hrp]; rfl
  have hpops : execAll (List.replicate payload.length .decPay) s = .next (popped payload s) :=
    execAll_decPay_popped payload hp hv (by omega)
      (by simpa only [hzero, Nat.zero_add] using hbuf)
  have hack := exec_decAck_release (s := popped payload s) hp
  rw [execAll_append hpops]
  simp only [execAll, hack]
  rfl

end Sys2Proof.Machine
end

section
/-! Proofs of the family 40_crc.md: the forms of `crc8_step` (R132), the laws of `crc8` (R138), the CRC
operations (R133 to R135), and what they compute in a run (R136). -/

namespace Sys2Proof.Machine

/-! ### The step function -/

/-- One round bit by bit: every bit moves up by one, and bit 7 goes to the bits of the polynomial. -/
theorem crcRound_bits (a : Byte) :
    (crcRound a).getLsbD 0 = a.getLsbD 7 ∧
    (crcRound a).getLsbD 1 = (a.getLsbD 0 ^^ a.getLsbD 7) ∧
    (crcRound a).getLsbD 2 = (a.getLsbD 1 ^^ a.getLsbD 7) ∧
    (crcRound a).getLsbD 3 = a.getLsbD 2 ∧ (crcRound a).getLsbD 4 = a.getLsbD 3 ∧
    (crcRound a).getLsbD 5 = a.getLsbD 4 ∧ (crcRound a).getLsbD 6 = a.getLsbD 5 ∧
    (crcRound a).getLsbD 7 = a.getLsbD 6 := by
  rw [crcRound_eq_topBit]
  split <;> simp_all

theorem crcRound_eq_zero {a : Byte} (h : crcRound a = 0x00#8) : a = 0x00#8 := by
  revert a; decide +kernel

/-- A round is linear, and only zero goes to zero. -/
theorem crcRound_injective : Function.Injective crcRound := by
  intro a b h
  have hdiff : crcRound (a ^^^ b) = 0x00#8 := by rw [crcRound_xor, h, BitVec.xor_self]
  exact BitVec.xor_eq_zero_iff.1 (crcRound_eq_zero hdiff)

theorem crcRounds_injective (n : Nat) : Function.Injective (crcRounds n) := by
  induction n with
  | zero => exact fun _ _ h => h
  | succ n ih => exact ih.comp crcRound_injective

theorem crc8Step_comm (c b : Byte) : crc8Step c b = crc8Step b c := by
  rw [crc8Step, crc8Step, BitVec.xor_comm]

theorem crc8Step_eq_of_zero (c b : Byte) : crc8Step c b = crc8Step 0x00#8 (c ^^^ b) := by
  rw [crc8Step, crc8Step, BitVec.zero_xor]

theorem crc8Step_xor (c c' b b' : Byte) :
    crc8Step (c ^^^ c') (b ^^^ b') = crc8Step c b ^^^ crc8Step c' b' := by
  rw [crc8Step, crc8Step, crc8Step, ← crcRounds_xor]
  congr 1
  ac_rfl

theorem crc8Step_bijective_left (b : Byte) : Function.Bijective (crc8Step · b) :=
  Finite.injective_iff_bijective.1 fun _ _ h =>
    (BitVec.xor_left_inj b).1 (crcRounds_injective 8 h)

theorem crc8Step_bijective_right (c : Byte) : Function.Bijective (crc8Step c) := by
  simpa only [crc8Step_comm _ c] using crc8Step_bijective_left c

/-- Settles O17: the forms follow from the rounds' linearity; the eight equations are eight rounds bit by
bit, where what is added twice cancels; an injection of the bytes is a bijection. -/
theorem crcStepEquivalentForms : Obligations.CrcStepEquivalentForms := by
  refine ⟨crc8Step_eq_of_zero, crc8Step_xor, crc8Step_self 0x00, fun c b => ?_,
    fun b v => (crc8Step_bijective_left b).existsUnique v,
    fun c v => (crc8Step_bijective_right c).existsUnique v⟩
  simp only [crc8Step, crcRounds, crcRound_bits]
  generalize c ^^^ b = x
  simp [Bool.xor_comm, Bool.xor_left_comm]

/-! ### The checksum -/

theorem crc8From_cons (c b : Byte) (s : List Byte) :
    crc8From c (b :: s) = crc8From (crc8Step c b) s := List.foldl_cons ..

theorem crc8_zero_cons (s : List Byte) : crc8 (0x00#8 :: s) = crc8 s := by
  rw [crc8, crc8, crc8From_cons, crc8Step_self]

theorem crc8_replicate_zero (k : Nat) : crc8 (List.replicate k 0x00#8) = 0x00#8 := by
  induction k with
  | zero => rfl
  | succ k ih => rw [List.replicate_succ, crc8_zero_cons, ih]

/-- A payload followed by its own checksum: the last step is of equal bytes. -/
theorem crc8_append_crc8 (s : List Byte) : crc8 (s ++ [crc8 s]) = 0x00#8 := by
  rw [crc8_append_singleton, crc8Step_self]

/-- Linearity of the step, along two sequences of equal length. -/
theorem crc8From_zipWith_xor {s t : List Byte} (h : s.length = t.length) (c c' : Byte) :
    crc8From (c ^^^ c') (List.zipWith (fun a b => a ^^^ b) s t) = crc8From c s ^^^ crc8From c' t := by
  induction s generalizing t c c' with
  | nil => rw [List.length_eq_zero_iff.1 h.symm]; rfl
  | cons a s ih =>
    cases t with
    | nil => cases h
    | cons b t =>
      rw [List.zipWith_cons_cons, crc8From_cons, crc8From_cons, crc8From_cons, crc8Step_xor]
      exact ih (Nat.succ.inj h) _ _

/-- Settles O18: each law by the step's own, from the initial value 0x00. -/
theorem checksumLaws : Obligations.ChecksumLaws :=
  ⟨crc8_nil, crc8_replicate_zero, crc8_zero_cons, crc8_append_crc8, by decide,
    fun _ _ h => crc8From_zipWith_xor h 0x00 0x00⟩

/-! ### The operations -/

/-- CRC.UPD field by field, with the accumulator's new value left as it is: it unfolds into eight
rounds. -/
theorem exec_crcUpd_eq (b : Byte) (s : State) :
    exec (.crcUpd b) s =
      .next { s with crc := crc8Step s.crc b
                     rspOut := s.rspOut ++ [⟨false, crc8Step s.crc b⟩] } := by
  rw [exec_crcUpd]
  generalize crc8Step s.crc b = c
  rfl

/-- Settles O14: the row of the word, and the operation's own meaning. -/
theorem crcClrClears : Obligations.CrcClrClears :=
  ⟨decodeOp_crcClr, fun _ => rfl⟩

/-- Settles O15: the row of the word, and the operation's own meaning. -/
theorem crcUpdFeedsOneByte : Obligations.CrcUpdFeedsOneByte :=
  fun b => ⟨decodeOp_crcUpd b, exec_crcUpd_eq b⟩

/-- Settles O16: register 0x00 is the accumulator. -/
theorem crcRdReadsTheAccumulator : Obligations.CrcRdReadsTheAccumulator :=
  fun _ => ⟨rfl, rfl⟩

/-! ### The operations in a run -/

variable {s t : State} {i : Instr}

/-- Only CRC.CLR and CRC.UPD write the accumulator. -/
theorem exec_keeps_crc (hclr : i ≠ .crcClr) (hupd : updByte i = none) (h : exec i s = .next t) :
    t.crc = s.crc := by
  rcases instr_groups i with (hg | ⟨b, rfl⟩) | hg | hg | hg | hg | ⟨b, rfl⟩ | hg
  · exact absurd hg hclr
  · cases hupd
  · rw [exec_read_frame hg h]
  · rw [exec_enc_frame hg h]
  · rw [exec_result_frame (.inl hg) h]
  · rw [exec_result_frame (.inr hg) h]
  · rw [exec_beatInstr] at h
    cases h
    rw [takeBeat_frame]
  · rw [exec_wire_frame hg h]

theorem eq_crcUpd_of_updByte {b : Byte} (h : updByte i = some b) : i = .crcUpd b := by
  cases i <;> cases h
  rfl

theorem execAll_cons_next {is : List Instr} :
    execAll (i :: is) s = .next t ↔ ∃ u, exec i s = .next u ∧ execAll is u = .next t := by
  rw [execAll]
  cases exec i s <;> simp

/-- A run that answers a next state can be cut at any place. -/
theorem execAll_append_next {is js : List Instr} (h : execAll (is ++ js) s = .next t) :
    ∃ u, execAll is s = .next u ∧ execAll js u = .next t := by
  induction is generalizing s with
  | nil => exact ⟨s, rfl, h⟩
  | cons i is ih =>
    obtain ⟨v, hv, hrest⟩ := execAll_cons_next.1 h
    obtain ⟨u, hu, hjs⟩ := ih hrest
    exact ⟨u, execAll_cons_next.2 ⟨v, hv, hu⟩, hjs⟩

/-- A run without CRC.CLR feeds the accumulator the bytes of its CRC.UPDs, in order. -/
theorem execAll_crc {is : List Instr} (hclr : Instr.crcClr ∉ is) (h : execAll is s = .next t) :
    t.crc = crc8From s.crc (is.filterMap updByte) := by
  induction is generalizing s with
  | nil => cases h; rfl
  | cons i is ih =>
    obtain ⟨hi, his⟩ := not_or.1 (List.mem_cons.not.1 hclr)
    obtain ⟨u, hu, hrest⟩ := execAll_cons_next.1 h
    rw [ih his hrest]
    cases hb : updByte i with
    | none => rw [List.filterMap_cons_none hb, exec_keeps_crc (Ne.symm hi) hb hu]
    | some b =>
      rw [eq_crcUpd_of_updByte hb, exec_crcUpd_eq, Host.Outcome.next.injEq] at hu
      rw [List.filterMap_cons_some hb, ← hu, crc8From_cons]

/-- A run from CRC.CLR without another one leaves the checksum of the bytes it fed. -/
theorem execAll_crcClr_crc {is : List Instr} (hclr : Instr.crcClr ∉ is)
    (h : execAll (.crcClr :: is) s = .next t) : t.crc = crc8 (is.filterMap updByte) := by
  obtain ⟨u, hu, hrest⟩ := execAll_cons_next.1 h
  cases hu
  exact execAll_crc hclr hrest

/-- Settles O19: the accumulator holds the checksum of the bytes fed so far, and a CRC.UPD answers what it
leaves there. -/
theorem crcOperationsComputeTheChecksum : Obligations.CrcOperationsComputeTheChecksum := by
  refine ⟨fun is s t hclr h => execAll_crcClr_crc hclr h,
    fun is t hclr h => execAll_crc hclr h, fun is b s t hclr h => ?_⟩
  obtain ⟨u, hrun, hlast⟩ := execAll_append_next h
  obtain ⟨t', hupd, hend⟩ := execAll_cons_next.1 hlast
  cases hend
  rw [exec_crcUpd_eq, Host.Outcome.next.injEq] at hupd
  rw [← hupd, List.getLast?_concat, execAll_crcClr_crc hclr hrun, crc8_append_singleton]

end Sys2Proof.Machine
end

section
/-! Proofs of the family 41_brev.md: the permutation `rev8` bit by bit (R150), its laws (R152), and the
operation BREV (R151). -/

namespace Sys2Proof.Machine

/-! ### The permutation of the bits -/

/-- R150: bit `k` of the reversed byte is bit `7 - k`. -/
theorem rev8_getLsbD (b : Byte) {k : Nat} (hk : k < 8) :
    (rev8 b).getLsbD k = b.getLsbD (7 - k) := by
  simp only [rev8, BitVec.append_ofBool, BitVec.getLsbD_concat]
  interval_cases k <;> simp

/-- Settles O20: the row of the word, the permutation, and the operation's own meaning. -/
theorem brevReversesTheByte : Obligations.BrevReversesTheByte :=
  fun b => ⟨decodeOp_brev b, fun _ hk => rev8_getLsbD b hk, fun _ => rfl⟩

/-! ### Bitwise operations -/

theorem rev8_xor (x y : Byte) : rev8 (x ^^^ y) = rev8 x ^^^ rev8 y :=
  BitVec.eq_of_getLsbD_eq fun k hk => by simp only [rev8_getLsbD _ hk, BitVec.getLsbD_xor]

theorem rev8_and (x y : Byte) : rev8 (x &&& y) = rev8 x &&& rev8 y :=
  BitVec.eq_of_getLsbD_eq fun k hk => by simp only [rev8_getLsbD _ hk, BitVec.getLsbD_and]

theorem rev8_or (x y : Byte) : rev8 (x ||| y) = rev8 x ||| rev8 y :=
  BitVec.eq_of_getLsbD_eq fun k hk => by simp only [rev8_getLsbD _ hk, BitVec.getLsbD_or]

theorem rev8_not (x : Byte) : rev8 (~~~x) = ~~~(rev8 x) :=
  BitVec.eq_of_getLsbD_eq fun k hk => by
    have hk' : 7 - k < 8 := by omega
    simp only [rev8_getLsbD _ hk, BitVec.getLsbD_not, hk, hk']

/-! ### The fixed points -/

/-- The byte with the bits `a`, `b`, `c`, `d` read from either end. -/
def palindrome (a b c d : Bool) : Byte :=
  BitVec.ofBool a ++ BitVec.ofBool b ++ BitVec.ofBool c ++ BitVec.ofBool d ++
    BitVec.ofBool d ++ BitVec.ofBool c ++ BitVec.ofBool b ++ BitVec.ofBool a

/-- A fixed point is the palindrome of its low four bits. -/
theorem eq_palindrome_of_rev8_eq {x : Byte} (h : rev8 x = x) :
    x = palindrome (x.getLsbD 0) (x.getLsbD 1) (x.getLsbD 2) (x.getLsbD 3) := by
  have mirror : ∀ {k}, k < 8 → x.getLsbD (7 - k) = x.getLsbD k := fun {k} hk => by
    rw [← rev8_getLsbD x hk, h]
  calc x = rev8 x := h.symm
    _ = _ := by
      rw [rev8, palindrome, mirror (k := 3) (by decide), mirror (k := 2) (by decide),
        mirror (k := 1) (by decide), mirror (k := 0) (by decide)]

/-- R152 (d): a fixed point is one of the sixteen palindromes. -/
theorem rev8_eq_self_iff (x : Byte) :
    rev8 x = x ↔
      x ∈ [0x00#8, 0x18, 0x24, 0x3C, 0x42, 0x5A, 0x66, 0x7E, 0x81, 0x99, 0xA5, 0xBD, 0xC3, 0xDB,
        0xE7, 0xFF] := by
  constructor
  · intro h
    rw [eq_palindrome_of_rev8_eq h]
    generalize x.getLsbD 0 = a, x.getLsbD 1 = b, x.getLsbD 2 = c, x.getLsbD 3 = d
    revert a b c d
    decide
  · revert x
    decide

/-! ### The swap cascade -/

/-- One stage of the cascade: the bits under `hi` move down by `d`, the bits under `lo` up by `d`. -/
def swapFields (d : Nat) (hi lo x : Byte) : Byte :=
  ((x &&& hi) >>> d) ||| ((x &&& lo) <<< d)

/-- The masks of a stage: bit `k` of the result comes from one side only, from the bit that stands `d` away
across its own pair of fields, which is the bit `k ^^^ d`. -/
abbrev SwapMasks (d : Nat) (hi lo : Byte) : Prop :=
  ∀ k < 8,
    (k ^^^ d = k + d ∧ hi.getLsbD (k + d) = true ∧ (k < d ∨ lo.getLsbD (k - d) = false)) ∨
    (k ^^^ d = k - d ∧ d ≤ k ∧ lo.getLsbD (k - d) = true ∧ hi.getLsbD (k + d) = false)

theorem swapFields_getLsbD {d : Nat} {hi lo : Byte} (hm : SwapMasks d hi lo) (x : Byte) {k : Nat}
    (hk : k < 8) : (swapFields d hi lo x).getLsbD k = x.getLsbD (k ^^^ d) := by
  have hbit : (swapFields d hi lo x).getLsbD k =
      (x.getLsbD (k + d) && hi.getLsbD (k + d) ||
        !decide (k < d) && (x.getLsbD (k - d) && lo.getLsbD (k - d))) := by
    simp only [swapFields, BitVec.getLsbD_or, BitVec.getLsbD_ushiftRight, BitVec.getLsbD_shiftLeft,
      BitVec.getLsbD_and, hk, decide_true, Bool.true_and, Nat.add_comm d k]
  rcases hm k hk with ⟨hx, hhi, hlt | hlo⟩ | ⟨hx, hle, hlo, hhi⟩
  · simp [hbit, hx, hhi, hlt]
  · simp [hbit, hx, hhi, hlo]
  · simp [hbit, hx, hhi, hlo, hle]

/-- R152 (e): the three stages change the place `k` in its bits 0, 1 and 2, and so to `7 - k`. -/
theorem rev8_eq_swapCascade (x : Byte) :
    rev8 x =
      swapFields 1 0xAA#8 0x55#8
        (swapFields 2 0xCC#8 0x33#8 (swapFields 4 0xF0#8 0x0F#8 x)) := by
  have hplace : ∀ k < 8, k ^^^ 1 < 8 ∧ k ^^^ 1 ^^^ 2 < 8 ∧ k ^^^ 1 ^^^ 2 ^^^ 4 = 7 - k := by decide
  refine BitVec.eq_of_getLsbD_eq fun k hk => ?_
  obtain ⟨h1, h2, h4⟩ := hplace k hk
  rw [rev8_getLsbD x hk, swapFields_getLsbD (by decide) _ hk, swapFields_getLsbD (by decide) _ h1,
    swapFields_getLsbD (by decide) _ h2, h4]

/-- Settles O21: the laws, each from the permutation of the bits. -/
theorem bitReversalLaws : Obligations.BitReversalLaws :=
  ⟨rev8_rev8, by decide, fun x y => ⟨rev8_xor x y, rev8_and x y, rev8_or x y⟩, rev8_not,
    rev8_eq_self_iff, rev8_eq_swapCascade⟩

end Sys2Proof.Machine
end

section
/-! Proofs of the family 42_enc.md: the ENC operations (R161 to R169), the way out of PAYLOAD (R175),
the frame that FRAME and FRAMER emit (R176), and its way back through the RX stream (R177). -/

namespace Sys2Proof.Machine

variable {s t : State} {i : Instr}

/-! ### The halves of the length -/

theorem half_and (lo hi lo' hi' : Byte) :
    half lo hi &&& half lo' hi' = half (lo &&& lo') (hi &&& hi') := BitVec.and_append

theorem half_or (lo hi lo' hi' : Byte) :
    half lo hi ||| half lo' hi' = half (lo ||| lo') (hi ||| hi') := BitVec.or_append

theorem setWidth_eq_half (b : Byte) : b.setWidth 16 = half b 0x00#8 :=
  BitVec.setWidth_eq_append (by decide)

theorem setWidth_shiftLeft_eq_half (b : Byte) : b.setWidth 16 <<< 8 = half 0x00#8 b := by
  apply BitVec.eq_of_toNat_eq
  rw [half_toNat]
  simp [Nat.shiftLeft_eq]
  omega

/-- R165: the low half is written through the mask of the high one. -/
theorem setLow_eq_or (h : Half) (b : Byte) :
    setLow h b = (h &&& 0xFF00#16) ||| b.setWidth 16 := by
  have hmask : h &&& half 0x00#8 0xFF#8 = half 0x00#8 (highByte h) := by
    conv_lhs => rw [← half_low_high h, half_and]
    exact congr (congrArg half BitVec.and_zero) BitVec.and_allOnes
  rw [show (0xFF00#16 : Half) = half 0x00#8 0xFF#8 from rfl, hmask, setWidth_eq_half, half_or,
    BitVec.zero_or, BitVec.or_zero, setLow]

/-- R167: the high half is written through the mask of the low one. -/
theorem setHigh_eq_or (h : Half) (b : Byte) :
    setHigh h b = (h &&& 0x00FF#16) ||| (b.setWidth 16 <<< 8) := by
  have hmask : h &&& half 0xFF#8 0x00#8 = half (lowByte h) 0x00#8 := by
    conv_lhs => rw [← half_low_high h, half_and]
    exact congr (congrArg half BitVec.and_allOnes) BitVec.and_zero
  rw [show (0x00FF#16 : Half) = half 0xFF#8 0x00#8 from rfl, hmask, setWidth_shiftLeft_eq_half,
    half_or, BitVec.or_zero, BitVec.zero_or, setHigh]

theorem lowByte_eq_setWidth (h : Half) : lowByte h = h.setWidth 8 :=
  BitVec.setWidth_eq_extractLsb' (by decide) |>.symm

theorem highByte_eq_setWidth (h : Half) : highByte h = (h >>> 8).setWidth 8 := by
  rw [BitVec.setWidth_ushiftRight_eq_extractLsb]; rfl

/-- The length bytes of `FRAME` are the length (30_encoding.md R104). -/
theorem half_mod_div (n : Nat) :
    half (BitVec.ofNat 8 (n % 256)) (BitVec.ofNat 8 (n / 256)) = BitVec.ofNat 16 n := by
  apply BitVec.eq_of_toNat_eq
  rw [half_toNat]
  simp only [BitVec.toNat_ofNat]
  omega

/-- The length of a representable payload fits its field (R172). -/
theorem length_toNat {p : List Byte} (hp : p.length ≤ 65535) :
    (BitVec.ofNat 16 p.length).toNat = p.length := by
  rw [BitVec.toNat_ofNat]; omega

/-! ### The operations, each in its two or three cases -/

/-- Settles O24: each of the five begins with the test of `enc_busy`. -/
theorem encHeaderLockedWhileBusy : Obligations.EncHeaderLockedWhileBusy := by
  intro b s hb i hi
  simp only [List.mem_cons, List.not_mem_nil, or_false] at hi
  have hwrite := fun e => congrArg (Host.Outcome.next : State → Result) (writeHeader_busy e hb)
  rcases hi with rfl | rfl | rfl | rfl | rfl
  · exact hwrite _
  · exact hwrite _
  · exact hwrite _
  · exact hwrite _
  · exact congrArg Host.Outcome.next (startFrame_busy hb)

/-- A header write while idle. -/
theorem next_writeHeader_idle (e : EncState) (h : s.enc.busy = false) :
    (Host.Outcome.next (writeHeader e s) : Result) =
      .next { s with enc := e, rspOut := s.rspOut ++ [⟨false, 0x00⟩] } :=
  congrArg Host.Outcome.next (writeHeader_idle e h)

/-- Settles O23: the rows of the words, and the header write in its two cases. -/
theorem encHeaderWritesWhileIdle : Obligations.EncHeaderWritesWhileIdle := by
  intro b
  refine ⟨⟨decodeOp_encCmd b, decodeOp_encType b, decodeOp_encLenl b, decodeOp_encLenh b⟩,
    fun s => ⟨fun h => ?_, fun hb i hi => ?_⟩⟩
  · rw [← setLow_eq_or, ← setHigh_eq_or]
    exact ⟨next_writeHeader_idle _ h, next_writeHeader_idle _ h, next_writeHeader_idle _ h,
      next_writeHeader_idle _ h⟩
  · refine encHeaderLockedWhileBusy b s hb i ?_
    exact List.mem_append_left [Instr.encStart] hi

/-- Settles O25: the rows of the words, and ENC.START in its three cases. -/
theorem encStartEmitsTheHeader : Obligations.EncStartEmitsTheHeader := by
  refine ⟨decodeOp_encStart, fun s => ⟨fun hb => ?_, fun h hl => ?_, fun h hl => ?_⟩⟩
  · exact congrArg Host.Outcome.next (startFrame_busy hb)
  · rw [List.append_assoc, hl]
    exact congrArg Host.Outcome.next (startFrame_empty h hl)
  · rw [← lowByte_eq_setWidth, ← highByte_eq_setWidth]
    exact congrArg Host.Outcome.next (startFrame_open h hl)

/-- Settles O26: the rows of the words, and the payload byte in its three cases. -/
theorem encPutEmitsOneByte : Obligations.EncPutEmitsOneByte := by
  intro b v i s hi
  have hx : exec i s = .next (putByte v s) := by
    rcases hi with ⟨rfl, hv⟩ | ⟨rfl, hv⟩
    · rw [hv, exec_encPut]
    · rw [hv, exec_encPutr]
  refine ⟨⟨decodeOp_encPut b, decodeOp_encPutr b⟩, fun hb hr => ?_, fun hb hr => ?_, fun h => ?_⟩
  · have hne : s.enc.rem ≠ 1 := fun he => by simp [he] at hr
    rw [hx, putByte_more v hb hne]
  · rw [hx, putByte_last v hb hr]
    generalize crc8Step s.enc.crc v = x
    rfl
  · rw [hx, putByte_idle v h]; rfl

/-! ### The way out of PAYLOAD -/

theorem enc_ne_of_leaves (hb : s.enc.busy = true) (ht : t.enc.busy = false) : t.enc ≠ s.enc :=
  fun he => by simp [he, hb] at ht

/-- No instruction but the last payload byte owed takes a busy ENC to idle. -/
theorem exec_leaves_payload (hb : s.enc.busy = true) (h : exec i s = .next t)
    (ht : t.enc.busy = false) :
    s.enc.rem = 1 ∧ t.enc.rem = 0 ∧
      ∃ v : Byte, t.txOut = s.txOut ++ [⟨v, false⟩, ⟨t.enc.crc, false⟩, ⟨0xFF, true⟩] := by
  have hne := enc_ne_of_leaves hb ht
  cases hi : isEncOp i with
  | false => exact absurd (exec_keeps_enc_txOut hi h).1 hne
  | true =>
    rcases exec_enc_op hi h with ⟨e, rfl, -⟩ | rfl | ⟨v, rfl⟩
    · exact absurd (congrArg State.enc (writeHeader_busy e hb)) hne
    · exact absurd (congrArg State.enc (startFrame_busy hb)) hne
    · by_cases hr : s.enc.rem = 1
      · rw [putByte_last v hb hr]
        generalize crc8Step s.enc.crc v = c
        exact ⟨hr, rfl, v, rfl⟩
      · rw [putByte_more v hb hr] at ht
        exact absurd (hb.symm.trans ht) (by decide)

/-- Settles O29: of all that a step can be, only reset and the last byte owed leave PAYLOAD. -/
theorem payloadIsLeftOnlyByItsLastByteOrReset :
    Obligations.PayloadIsLeftOnlyByItsLastByteOrReset := by
  intro s t hb h ht
  have hne := enc_ne_of_leaves hb ht
  rcases step_cases h with ⟨-, rfl⟩ | ⟨turns, hq, -⟩ | ⟨turns, -, -, rfl⟩ |
    ⟨turns, w, ws, i, -, -, -, hx⟩ | ⟨turns, w, ws, why, -, -, -, rfl⟩ | ⟨turns, -, -, rfl⟩ |
    ⟨turns, b, ws, -, -, rfl⟩
  · exact absurd rfl hne
  · exact .inl (by rw [hq]; rfl)
  · exact absurd rfl hne
  · exact .inr (exec_leaves_payload (s := { s with sched := turns, hostIn := ws }) hb hx ht)
  · exact absurd rfl hne
  · exact absurd rfl hne
  · exact absurd (by rw [takeBeat_frame]) hne

/-! ### The operations of FRAME, performed one after another -/

/-- The state after a busy ENC is given the whole payload it owes. -/
def payloadSent (p : List Byte) (s : State) : State :=
  { s with
    enc := { s.enc with rem := 0, crc := crc8From s.enc.crc p, busy := false }
    txOut := s.txOut ++ (openBeats p ++ tailBeats (crc8From s.enc.crc p))
    rspOut := s.rspOut ++ p.map (fun b => ⟨false, b⟩) }

/-- ENC.PUT once for each byte owed emits the bytes, their checksum and the end marker (R168). -/
theorem execAll_encPut {p : List Byte} (hp : p ≠ []) (hb : s.enc.busy = true)
    (hr : s.enc.rem.toNat = p.length) :
    execAll (p.map .encPut) s = .next (payloadSent p s) := by
  induction p generalizing s with
  | nil => exact absurd rfl hp
  | cons v p ih =>
    by_cases hlast : p = []
    · subst hlast
      have hone : s.enc.rem = 1 := BitVec.eq_of_toNat_eq hr
      simp [execAll, exec_encPut, putByte_last v hb hone, payloadSent, openBeats, crc8From]
    · have hlen := List.length_pos_iff.2 hlast
      rw [List.length_cons] at hr
      have hmore : s.enc.rem ≠ 1 := by bv_omega
      simp only [List.map_cons, execAll, exec_encPut, putByte_more v hb hmore]
      rw [ih hlast]
      · simp [payloadSent, openBeats, crc8From_cons]
      · exact hb
      · show (s.enc.rem - 1).toNat = p.length
        bv_omega

/-- The state after the operations of `FRAME c, y, p` (R176). -/
def frameSent (c y : Byte) (p : List Byte) (s : State) : State :=
  { s with
    enc := { cmd := c, typ := y, len := BitVec.ofNat 16 p.length, rem := 0, crc := crc8 p,
             busy := false }
    txOut := s.txOut ++ beatsOf (encodeFrame c y p)
    rspOut := s.rspOut ++ List.replicate 5 ⟨false, 0x00⟩ ++ p.map (fun b => ⟨false, b⟩) }

/-- The state after the header of `FRAME c, y, p` is written, before ENC.START. -/
def headerWritten (c y : Byte) (len : Half) (s : State) : State :=
  { s with
    enc := { s.enc with cmd := c, typ := y, len := len }
    rspOut := s.rspOut ++ List.replicate 4 ⟨false, 0x00⟩ }

/-- Each half of the length replaces its own half only, so the two make up the length. -/
theorem execAll_header (c y : Byte) (n : Nat) (h : s.enc.busy = false) :
    execAll [.encCmd c, .encType y, .encLenl (BitVec.ofNat 8 (n % 256)),
      .encLenh (BitVec.ofNat 8 (n / 256))] s =
        .next (headerWritten c y (BitVec.ofNat 16 n) s) := by
  simp [execAll, exec, execEncCmd, execEncType, execEncLenl, execEncLenh, writeHeader_idle, h, setLow,
    setHigh, half_mod_div, respondOk, respond, headerWritten]

/-- R176: from an idle ENC the operations of FRAME emit the encoded frame. -/
theorem execAll_frameInstrs (c y : Byte) {p : List Byte} (hp : p.length ≤ 65535)
    (h : s.enc.busy = false) : execAll (frameInstrs c y p) s = .next (frameSent c y p s) := by
  have hidle : (headerWritten c y (BitVec.ofNat 16 p.length) s).enc.busy = false := h
  have hsplit : frameInstrs c y p =
      [.encCmd c, .encType y, .encLenl (BitVec.ofNat 8 (p.length % 256)),
        .encLenh (BitVec.ofNat 8 (p.length / 256))] ++ .encStart :: p.map .encPut := rfl
  rw [hsplit, execAll_append (execAll_header c y p.length h)]
  simp only [execAll, exec, execEncStart]
  by_cases hnil : p = []
  · subst hnil
    rw [startFrame_empty hidle rfl]
    simp [execAll, headerWritten, frameSent, beatsOf_encodeFrame, h]
  · have hpos := List.length_pos_iff.2 hnil
    have hlen := length_toNat hp
    have hne : ¬ BitVec.ofNat 16 p.length = 0 := fun he => by simp [he] at hlen; omega
    rw [startFrame_open hidle hne, execAll_encPut hnil rfl hlen]
    simp [payloadSent, headerWritten, frameSent, beatsOf_encodeFrame, openBeats, crc8]

/-- ENC.PUTR of a byte is ENC.PUT of the reversed byte (R169). -/
theorem exec_encPutr_eq_encPut (b : Byte) (s : State) :
    exec (.encPutr b) s = exec (.encPut (rev8 b)) s := by
  rw [exec_encPutr, exec_encPut]

theorem execAll_map_encPutr (p : List Byte) (s : State) :
    execAll (p.map .encPutr) s = execAll ((p.map rev8).map .encPut) s := by
  induction p generalizing s with
  | nil => rfl
  | cons b p ih => simp only [List.map_cons, execAll, exec_encPutr_eq_encPut, ih]

/-- FRAMER of a row is FRAME of the reversed bytes (30_encoding.md R104). -/
theorem execAll_framerInstrs (c y : Byte) (p : List Byte) (s : State) :
    execAll (framerInstrs c y p) s = execAll (frameInstrs c y (p.map rev8)) s := by
  simp only [framerInstrs, frameInstrs, List.cons_append, List.nil_append, List.length_map, execAll,
    execAll_map_encPutr]

/-! ### Other instructions among them -/

/-- The two states agree in ENC and in the TX stream. -/
structure SameEnc (s t : State) : Prop where
  enc : t.enc = s.enc
  txOut : t.txOut = s.txOut

theorem writeHeader_sameEnc {e e' : EncState} (h : SameEnc s t) (he : e' = e) :
    SameEnc (writeHeader e s) (writeHeader e' t) := by
  obtain ⟨henc, htx⟩ := h
  simp only [writeHeader, henc, he]
  split_ifs <;> exact ⟨by simp [henc], by simp [htx]⟩

theorem startFrame_sameEnc (h : SameEnc s t) : SameEnc (startFrame s) (startFrame t) := by
  obtain ⟨henc, htx⟩ := h
  simp only [startFrame, henc]
  split_ifs <;> exact ⟨by simp [henc], by simp [htx]⟩

theorem putByte_sameEnc (v : Byte) (h : SameEnc s t) : SameEnc (putByte v s) (putByte v t) := by
  obtain ⟨henc, htx⟩ := h
  simp only [putByte, henc]
  split_ifs <;> exact ⟨by simp [henc], by simp [htx]⟩

/-- What an ENC operation does to ENC and the stream depends on ENC and the stream only. -/
theorem exec_sameEnc {s' : State} (hi : isEncOp i = true) (hs : SameEnc s s')
    (h : exec i s = .next t) : ∃ t', exec i s' = .next t' ∧ SameEnc t t' := by
  cases i <;> simp only [isEncOp, Bool.false_eq_true] at hi <;>
    obtain rfl := Host.Outcome.next.inj h
  case encStart => exact ⟨_, rfl, startFrame_sameEnc hs⟩
  case encPut b => exact ⟨_, rfl, putByte_sameEnc b hs⟩
  case encPutr b => exact ⟨_, rfl, putByte_sameEnc (rev8 b) hs⟩
  all_goals exact ⟨_, rfl, writeHeader_sameEnc hs (by rw [hs.enc])⟩

/-- A run does to ENC and the stream what its ENC operations alone do. -/
theorem execAll_filter_isEncOp {s' : State} {is : List Instr} (hs : SameEnc s s')
    (h : execAll is s = .next t) :
    ∃ t', execAll (is.filter isEncOp) s' = .next t' ∧ SameEnc t t' := by
  induction is generalizing s s' with
  | nil =>
    obtain rfl := Host.Outcome.next.inj h
    exact ⟨s', rfl, hs⟩
  | cons i is ih =>
    obtain ⟨u, hu, hrest⟩ := execAll_cons_next.1 h
    cases hi : isEncOp i with
    | true =>
      obtain ⟨u', hu', hsame⟩ := exec_sameEnc hi hs hu
      obtain ⟨t', ht', hend⟩ := ih hsame hrest
      rw [List.filter_cons_of_pos hi]
      exact ⟨t', execAll_cons_next.2 ⟨u', hu', ht'⟩, hend⟩
    | false =>
      obtain ⟨henc, htx⟩ := exec_keeps_enc_txOut hi hu
      rw [List.filter_cons_of_neg (by simp [hi])]
      exact ih ⟨hs.enc.trans henc.symm, hs.txOut.trans htx.symm⟩ hrest

/-- Settles O27: the run of FRAME, to which the run of FRAMER and every interleaved run come down. -/
theorem frameOperationsEmitTheEncodedFrame : Obligations.FrameOperationsEmitTheEncodedFrame := by
  intro s c y p q frame hidle hp hframe enc
  have hlen : q.length = p.length := by
    rcases hframe with ⟨-, rfl⟩ | ⟨-, rfl⟩ <;> simp
  have hrun : execAll frame s = .next (frameSent c y q s) := by
    rw [← execAll_frameInstrs c y (hlen ▸ hp) hidle]
    rcases hframe with ⟨rfl, rfl⟩ | ⟨rfl, rfl⟩
    · rfl
    · exact execAll_framerInstrs c y p s
  have henc : (frameSent c y q s).enc = enc := by simp only [frameSent, hlen, enc]
  refine ⟨?_, fun is u his hu => ?_, by simp [hlen]⟩
  · rw [hrun, ← henc]; rfl
  · obtain ⟨t', ht', hsame⟩ := execAll_filter_isEncOp ⟨rfl, rfl⟩ hu
    rw [his, hrun] at ht'
    obtain rfl := Host.Outcome.next.inj ht'
    exact ⟨hsame.enc.symm.trans henc, hsame.txOut.symm⟩

/-! ### Decoding an encoded frame -/

/-- Settles O35: the frame parses to its parts. -/
theorem decodeOfEncodedFrame : Obligations.DecodeOfEncodedFrame :=
  fun c y _ hp => decodeMessage_encodeFrame c y hp

/-! ### A message received (43_dec.md R196, R197) -/

variable {raw : List Byte}

/-- The payload bytes of a message, as far as they have come. -/
def payloadSoFar (raw : List Byte) : List Byte := (raw.drop 6).take (declaredLength raw)

/-- What DEC holds once the bytes `raw` of a message are stored, the first ones of a longer message
or all of it (43_dec.md R196). A place not reached yet holds its reset value 0. -/
structure Stored (raw : List Byte) (s : State) : Prop where
  cnt : s.work.cnt.toNat = min raw.length 131071
  hdr : ∀ (k : Nat) (h : k < 6), s.work.hdr[k] = byteAt raw k
  crc : s.work.crc = crc8 (payloadSoFar raw)
  rxcrc : s.work.rxcrc = byteAt raw (6 + declaredLength raw)
  endm : s.work.endm = byteAt raw (7 + declaredLength raw)
  buf : ∀ (k : Nat) (h : k < (payloadSoFar raw).length),
    memGet s.buf k = some (payloadSoFar raw)[k]

theorem stored_nil (h : s.work = DecWork.reset) : Stored [] s where
  cnt := by rw [h]; rfl
  hdr k hk := by rw [h]; simp [DecWork.reset, byteAt]
  crc := by rw [h]; rfl
  rxcrc := by rw [h]; rfl
  endm := by rw [h]; rfl
  buf k hk := by simp [payloadSoFar] at hk

theorem Stored.workLen_toNat (h : Stored raw s) :
    (workLen s.work).toNat = declaredLength raw := by
  rw [Machine.workLen_toNat, h.hdr 4 (by omega), h.hdr 5 (by omega), declaredLength]

theorem byteAt_concat (raw : List Byte) (b : Byte) (k : Nat) :
    byteAt (raw ++ [b]) k = if k = raw.length then b else byteAt raw k := by
  simp only [byteAt, List.getD_eq_getElem?_getD, List.getElem?_append]
  split_ifs with h1 h2 h2
  · omega
  · rfl
  · simp [h2]
  · rw [List.getElem?_eq_none (by simp; omega), List.getElem?_eq_none (by omega)]

theorem byteAt_of_length_le {k : Nat} (h : raw.length ≤ k) :
    byteAt raw k = 0x00#8 := by
  simp [byteAt, h]

theorem declaredLength_concat (b : Byte) (h : 6 ≤ raw.length) :
    declaredLength (raw ++ [b]) = declaredLength raw := by
  rw [declaredLength, byteAt_concat, byteAt_concat, if_neg (by omega), if_neg (by omega),
    declaredLength]

/-- In the header no payload byte has come. -/
theorem payloadSoFar_header (h : raw.length ≤ 6) : payloadSoFar raw = [] := by
  simp [payloadSoFar, List.drop_eq_nil_of_le h]

theorem payloadSoFar_concat (b : Byte) (h : 6 ≤ raw.length)
    (hlen : raw.length < 6 + declaredLength raw) :
    payloadSoFar (raw ++ [b]) = payloadSoFar raw ++ [b] := by
  rw [payloadSoFar, payloadSoFar, declaredLength_concat b h, List.drop_append_of_le_length h,
    List.take_of_length_le (by simp; omega), List.take_of_length_le (by simp; omega)]

theorem payloadSoFar_concat_after (b : Byte)
    (hlen : 6 + declaredLength raw ≤ raw.length) :
    payloadSoFar (raw ++ [b]) = payloadSoFar raw := by
  rw [payloadSoFar, payloadSoFar, declaredLength_concat b (by omega),
    List.drop_append_of_le_length (by omega), List.take_append_of_le_length (by simp; omega)]

theorem payloadSoFar_length :
    (payloadSoFar raw).length = min (declaredLength raw) (raw.length - 6) := by
  simp [payloadSoFar]

theorem Stored.cnt_eq (hs : Stored raw s) (h : raw.length < 131071) :
    s.work.cnt.toNat = raw.length := by
  rw [hs.cnt]; omega

theorem Stored.cnt_concat (b : Byte) (hs : Stored raw s) :
    (countUp s.work.cnt).toNat = min (raw ++ [b]).length 131071 := by
  rw [countUp_toNat, hs.cnt, List.length_append, List.length_singleton]; omega

theorem Stored.header_byte (b : Byte) (hs : Stored raw s)
    (h : raw.length < 6) : Stored (raw ++ [b]) (storeByte b s) := by
  have hcnt := hs.cnt_eq (by omega)
  have hlen : (raw ++ [b]).length ≤ 6 := by simp; omega
  have hnone := payloadSoFar_header hlen
  rw [storeByte_header b (hcnt ▸ h)]
  refine ⟨hs.cnt_concat b, fun k hk => ?_, ?_, ?_, ?_, ?_⟩
  · simp only [Vector.getElem_set, hcnt, byteAt_concat, hs.hdr k hk, eq_comm]
  · rw [hnone, hs.crc, payloadSoFar_header (by omega)]
  · rw [hs.rxcrc, byteAt_of_length_le (by omega), byteAt_of_length_le (by omega)]
  · rw [hs.endm, byteAt_of_length_le (by omega), byteAt_of_length_le (by omega)]
  · simp [hnone]

/-- After the header a byte changes neither the header nor the length it declares. -/
theorem Stored.hdr_concat (b : Byte) (hs : Stored raw s) (h : 6 ≤ raw.length)
    (k : Nat) (hk : k < 6) : s.work.hdr[k] = byteAt (raw ++ [b]) k := by
  rw [hs.hdr k hk, byteAt_concat, if_neg (by omega)]

/-- A byte that is not at the checksum's place leaves the checksum received. -/
theorem Stored.rxcrc_concat (b : Byte) (hs : Stored raw s) (h : 6 ≤ raw.length)
    (hne : 6 + declaredLength raw ≠ raw.length) :
    s.work.rxcrc = byteAt (raw ++ [b]) (6 + declaredLength (raw ++ [b])) := by
  rw [declaredLength_concat b h, byteAt_concat, if_neg hne, hs.rxcrc]

/-- A byte that is not at the end marker's place leaves the end marker received. -/
theorem Stored.endm_concat (b : Byte) (hs : Stored raw s) (h : 6 ≤ raw.length)
    (hne : 7 + declaredLength raw ≠ raw.length) :
    s.work.endm = byteAt (raw ++ [b]) (7 + declaredLength (raw ++ [b])) := by
  rw [declaredLength_concat b h, byteAt_concat, if_neg hne, hs.endm]

theorem Stored.payload_byte (b : Byte) (hs : Stored raw s)
    (h : 6 ≤ raw.length) (hlt : raw.length < 6 + declaredLength raw) :
    Stored (raw ++ [b]) (storeByte b s) := by
  have := declaredLength_lt raw
  have hcnt := hs.cnt_eq (by omega)
  have hplace : (payloadSoFar raw).length = raw.length - 6 := by
    rw [payloadSoFar_length]; omega
  rw [storeByte_payload b (by omega) (by rw [hs.workLen_toNat]; omega)]
  refine ⟨hs.cnt_concat b, hs.hdr_concat b h, ?_, hs.rxcrc_concat b h (by omega),
    hs.endm_concat b h (by omega), ?_⟩
  · rw [payloadSoFar_concat b h hlt, crc8_append_singleton, ← hs.crc]
  · simp only [payloadSoFar_concat b h hlt, hcnt, ← hplace]
    intro k hk
    by_cases hlast : k = (payloadSoFar raw).length
    · subst hlast; simp
    · have hk' : k < (payloadSoFar raw).length := by simp at hk; omega
      rw [memGet_memSet_other _ _ hlast, hs.buf k hk', List.getElem_append_left hk']

/-- After the payload a byte is the checksum, the end marker, or dropped. -/
theorem Stored.tail_byte (b : Byte) (hs : Stored raw s)
    (h : 6 + declaredLength raw ≤ raw.length) : Stored (raw ++ [b]) (storeByte b s) := by
  have h6 : 6 ≤ raw.length := by omega
  have hdecl := declaredLength_concat b h6
  have hpay := payloadSoFar_concat_after b h
  have hcnt := hs.cnt
  have hlen := hs.workLen_toNat
  have hlt := declaredLength_lt raw
  have hhdr := hs.hdr_concat b h6
  have hcrc : s.work.crc = crc8 (payloadSoFar (raw ++ [b])) := by rw [hpay, hs.crc]
  have hbuf : ∀ (k : Nat) (h : k < (payloadSoFar (raw ++ [b])).length),
      memGet s.buf k = some (payloadSoFar (raw ++ [b]))[k] := by rw [hpay]; exact hs.buf
  obtain hc | hc | hc : 6 + declaredLength raw = raw.length ∨
    7 + declaredLength raw = raw.length ∨ 7 + declaredLength raw < raw.length := by omega
  · rw [storeByte_checksum b (by omega)]
    exact ⟨hs.cnt_concat b, hhdr, hcrc, by rw [hdecl, byteAt_concat, if_pos hc],
      hs.endm_concat b h6 (by omega), hbuf⟩
  · rw [storeByte_end b (by omega)]
    exact ⟨hs.cnt_concat b, hhdr, hcrc, hs.rxcrc_concat b h6 (by omega),
      by rw [hdecl, byteAt_concat, if_pos hc], hbuf⟩
  · rw [storeByte_beyond b (by omega)]
    exact ⟨hs.cnt_concat b, hhdr, hcrc, hs.rxcrc_concat b h6 (by omega),
      hs.endm_concat b h6 (by omega), hbuf⟩

/-- One byte more is stored. -/
theorem Stored.concat (b : Byte) (hs : Stored raw s) :
    Stored (raw ++ [b]) (storeByte b s) := by
  by_cases hhdr : raw.length < 6
  · exact hs.header_byte b hhdr
  · by_cases hpay : raw.length < 6 + declaredLength raw
    · exact hs.payload_byte b (Nat.not_lt.1 hhdr) hpay
    · exact hs.tail_byte b (Nat.not_lt.1 hpay)

theorem Stored.bufRead_eq (hs : Stored raw s) {k : Nat}
    (hk : k < (payloadSoFar raw).length) : bufRead s k = byteAt (payloadSoFar raw) k := by
  rw [bufRead, hs.buf k hk]
  simp [byteAt, hk]

/-- The parts of a message long enough for the length it declares (43_dec.md R190). -/
def parsedFrame (raw : List Byte) : ParsedFrame :=
  { command := byteAt raw 2
    typeByte := byteAt raw 3
    payloadLength := half (byteAt raw 4) (byteAt raw 5)
    payload := payloadSoFar raw
    checksumReceived := byteAt raw (6 + declaredLength raw)
    checksumExpected := crc8 (payloadSoFar raw)
    crcValid := decide (crc8 (payloadSoFar raw) = byteAt raw (6 + declaredLength raw))
    endMarker := byteAt raw (7 + declaredLength raw) }

theorem decodeMessage_eq (raw : List Byte) :
    decodeMessage raw =
      if raw.length < 8 then .tooShort
      else if byteAt raw 0 ≠ Config.sync0 ∨ byteAt raw 1 ≠ Config.sync1 then .badSync
      else if raw.length < 8 + declaredLength raw then .truncated
      else .ok (parsedFrame raw) := by
  rw [decodeMessage, parsedFrame, ← ofNat_declaredLength, Nat.add_right_comm 6 1]
  rfl

theorem Stored.okResult_eq (hs : Stored raw s)
    (hlen : 8 + declaredLength raw ≤ raw.length) :
    okResult s = resultOf (.ok (parsedFrame raw)) := by
  have hpay : (payloadSoFar raw).length = declaredLength raw := by
    rw [payloadSoFar_length]; omega
  have hwork : workLen s.work = half (byteAt raw 4) (byteAt raw 5) := by
    rw [workLen, hs.hdr, hs.hdr]
  have hdecl : (half (byteAt raw 4) (byteAt raw 5)).toNat = declaredLength raw := half_toNat ..
  by_cases hst : byteAt raw 2 = Config.cmdStatus ∧ 3 ≤ declaredLength raw
  · have hread : ∀ k < 3, bufRead s k = byteAt (payloadSoFar raw) k :=
      fun k hk => hs.bufRead_eq (by omega)
    simp [okResult, resultOf, statusOf, parsedFrame, hs.hdr, hs.crc, hs.rxcrc, hs.endm,
      hwork, hpay, hst, hread, hdecl]
  · simp [okResult, resultOf, statusOf, parsedFrame, hs.hdr, hs.crc, hs.rxcrc, hs.endm,
      hwork, hpay, hst, hdecl]

/-- The latch classifies the bytes stored as `decode` does the message (R207). -/
theorem Stored.classify_eq (hs : Stored raw s) :
    classify s = resultOf (decodeMessage raw) := by
  have := declaredLength_lt raw
  have hcnt := hs.cnt
  have hshort : s.work.cnt.toNat < 8 ↔ raw.length < 8 := by omega
  have htrunc : s.work.cnt.toNat < 8 + declaredLength raw ↔ raw.length < 8 + declaredLength raw := by
    omega
  simp only [classify, Config.minFrame, hs.workLen_toNat, hs.hdr, hshort, htrunc, decodeMessage_eq]
  split_ifs with h1 h2 h3
  · rfl
  · rfl
  · rfl
  · exact hs.okResult_eq (by omega)

/-- Beats with `last = 0` are stored, and no result comes of them. -/
theorem execAll_openBeats (bytes : List Byte) (hs : Stored raw s)
    (hp : s.res.pending = false) :
    ∃ t, execAll ((openBeats bytes).map beatInstr) s = .next t ∧ Stored (raw ++ bytes) t ∧
      t.res.pending = false := by
  induction bytes generalizing raw s with
  | nil => exact ⟨s, rfl, by rwa [List.append_nil], hp⟩
  | cons b bytes ih =>
    obtain ⟨t, ht, hstored, hpend⟩ := ih (hs.concat b) (by rwa [storeByte_res])
    refine ⟨t, execAll_cons_next.2 ⟨storeByte b s, ?_, ht⟩, by rwa [← List.append_cons] at hstored,
      hpend⟩
    rw [exec_beatInstr, takeBeat_accepted b hp]

/-- R207: the beats of a message, from an empty DEC, latch the result of `decode` and leave the payload
in `buf`. -/
theorem execAll_beatsOf (hne : raw ≠ []) (hp : s.res.pending = false)
    (hw : s.work = DecWork.reset) :
    ∃ t, execAll ((beatsOf raw).map beatInstr) s = .next t ∧ t.res = resultOf (decodeMessage raw) ∧
      ∀ (k : Nat) (h : k < (payloadSoFar raw).length),
        memGet t.buf k = some (payloadSoFar raw)[k] := by
  obtain ⟨bytes, b, rfl⟩ := (List.eq_nil_or_concat' raw).resolve_left hne
  obtain ⟨u, hu, hstored, hpend⟩ := execAll_openBeats bytes (stored_nil hw) hp
  have hall : Stored (bytes ++ [b]) (storeByte b u) := hstored.concat b
  refine ⟨latch (storeByte b u), ?_, hall.classify_eq, hall.buf⟩
  rw [beatsOf_append_singleton, List.map_append, execAll_append hu]
  simp [execAll, takeBeat_last b hpend]

theorem payloadSoFar_encodeFrame (c y : Byte) {p : List Byte} (hp : p.length ≤ 65535) :
    payloadSoFar (encodeFrame c y p) = p := by
  rw [payloadSoFar, declaredLength_encodeFrame c y hp, encodeFrame_eq]
  simp [headerBytes]

/-- Settles O43: FRAME emits the encoded frame, its beats latch what `decode` says of it, and that is the
frame's own fields. -/
theorem loopBackRoundTrip : Obligations.LoopBackRoundTrip := by
  intro s c y p hp hidle hpend hwork
  have hne : encodeFrame c y p ≠ [] := List.cons_ne_nil _ _
  obtain ⟨v, hv, hres, hbuf⟩ := execAll_beatsOf (s := frameSent c y p s) hne hpend hwork
  have hbeats : (frameSent c y p s).txOut.drop s.txOut.length = beatsOf (encodeFrame c y p) :=
    List.drop_left
  rw [decodeMessage_encodeFrame c y hp] at hres
  refine ⟨_, v, execAll_frameInstrs c y hp hidle, by rw [hbeats]; exact hv, ?_⟩
  simp only [hres, resultOf]
  refine ⟨trivial, trivial, trivial, trivial, length_toNat hp, trivial, trivial, rfl, fun k hk => ?_⟩
  simpa only [payloadSoFar_encodeFrame c y hp] using
    hbuf k (by rwa [payloadSoFar_encodeFrame c y hp])

end Sys2Proof.Machine
end

section
/-! Proofs of the family 43_dec.md: the order of `decode`'s checks (R191), one beat and the latch (R195
to R199), DEC.PAY and DEC.ACK (R200, R202), and a whole message among the host's words (R207). -/

namespace Sys2Proof.Machine

variable {s t : State} {i : Instr} {raw got : List Byte} {turns rest : List Turn}

/-! ### Decoding -/

/-- Settles O34: `decode` in its four branches, one after another. -/
theorem decodeChecksInOrder : Obligations.DecodeChecksInOrder := by
  intro raw
  have htotal : 8 + (byteAt raw 4).toNat + 256 * (byteAt raw 5).toNat = 8 + declaredLength raw :=
    Nat.add_assoc ..
  rw [htotal, decodeMessage_eq]
  refine ⟨fun hshort => if_pos hshort, fun hlong hsync => ?_, fun hlong h0 h1 htrunc => ?_,
    fun hlong h0 h1 hwhole => ⟨parsedFrame raw, ?_⟩⟩
  · rw [if_neg (Nat.not_lt.2 hlong)]
    exact if_pos hsync
  · rw [if_neg (Nat.not_lt.2 hlong), if_neg (by simp [h0, h1]), if_pos htrunc]
  · rw [if_neg (Nat.not_lt.2 hlong), if_neg (by simp [h0, h1]), if_neg (Nat.not_lt.2 hwhole)]

/-- A parsed frame's parts are those of the message, which is long enough for them. -/
theorem eq_parsedFrame {f : ParsedFrame} (h : decodeMessage raw = .ok f) :
    f = parsedFrame raw ∧ 8 + declaredLength raw ≤ raw.length := by
  rw [decodeMessage_eq] at h
  split_ifs at h with hshort hsync htrunc
  exact ⟨(Decoded.ok.inj h).symm, Nat.not_lt.1 htrunc⟩

/-! ### DEC.PAY and DEC.ACK -/

/-- Settles O39: `DEC.PAY` pops while a payload byte is left, and is turned away otherwise. -/
theorem decPayPopsTheNextByte : Obligations.DecPayPopsTheNextByte := by
  refine ⟨decodeOp_decPay, fun s => ?_⟩
  rcases exec_decPay_cases s with ⟨hp, hv, hlt, he⟩ | ⟨hn, he⟩
  · refine ⟨fun _ _ _ => he, fun hno => ?_⟩
    rcases hno with hno | hno | hno
    · simp [hp] at hno
    · exact absurd hv hno
    · exact absurd hlt (Nat.not_lt.2 hno)
  · exact ⟨fun hp hv hlt => absurd ⟨hp, hv, hlt⟩ hn, fun _ => he⟩

/-- Settles O40: `DEC.ACK` releases a pending result, and is turned away without one. -/
theorem decAckReleasesTheResult : Obligations.DecAckReleasesTheResult := by
  refine ⟨decodeOp_decAck, fun s => ⟨exec_decAck_release, fun hn => ?_⟩⟩
  rcases exec_decAck_cases s with ⟨hp, -⟩ | ⟨-, he⟩
  · simp [hn] at hp
  · exact he

/-! ### One beat -/

/-- Settles O37: the beat goes back to the head of the queue it came from. -/
theorem rxBeatWaitsWhilePending : Obligations.RxBeatWaitsWhilePending := by
  refine ⟨fun b s hp => ?_, fun s turns hp hq => ?_⟩
  · rw [exec_beatInstr, takeBeat_pending b hp, holdBeat]
  · match hr : s.rxIn with
    | [] => rw [step_transport_idle hq hr, ← hr]
    | w :: ws =>
      obtain ⟨b, rfl⟩ := beatWord_surjective w
      rw [step_beat hq hr, takeBeat_pending (s := { s with sched := turns, rxIn := ws }) b hp,
        holdBeat, ← hr]

theorem exec_rxBeat_accepted (b : Byte) (hp : s.res.pending = false) :
    exec (.rxBeat b) s = .next (storeByte b s) :=
  congrArg Host.Outcome.next (takeBeat_accepted b hp)

theorem exec_rxBeatLast_accepted (b : Byte) (hp : s.res.pending = false) :
    exec (.rxBeatLast b) s = .next (latch (storeByte b s)) :=
  congrArg Host.Outcome.next (takeBeat_last b hp)

/-- Settles O36: the five places of a message, one after another. -/
theorem rxBeatStoresByPosition : Obligations.RxBeatStoresByPosition := by
  intro b s hp i len
  have hlen : (workLen s.work).toNat = len := workLen_toNat s.work
  refine ⟨_, exec_rxBeat_accepted b hp, storeByte_frame b s,
    by rw [storeByte_cnt, countUp_toNat], ?_⟩
  obtain h | ⟨h, h'⟩ | h | h | h : i < 6 ∨ (6 ≤ i ∧ i < 6 + len) ∨ i = 6 + len ∨ i = 7 + len ∨
    7 + len < i := by omega
  · rw [storeByte_header b h]
    simp (disch := omega) only [if_neg, implies_true, true_and]
    exact ⟨fun k hk => by simp only [Vector.getElem_set, eq_comm, i], by omega⟩
  · rw [storeByte_payload b h (hlen ▸ h')]
    simp (disch := omega) only [if_neg, if_pos, implies_true, true_and]
    exact ⟨fun hno => absurd ⟨h, h'⟩ hno, fun _ _ =>
      ⟨memGet_memSet_same .., fun k hk => memGet_memSet_other _ b hk⟩⟩
  · rw [storeByte_checksum b (hlen ▸ h)]
    simp (disch := omega) only [if_neg, if_pos, implies_true, true_and]
    omega
  · rw [storeByte_end b (hlen ▸ h)]
    simp (disch := omega) only [if_neg, if_pos, implies_true, true_and]
    omega
  · rw [storeByte_beyond b (hlen ▸ h)]
    simp (disch := omega) only [if_neg, implies_true, true_and]
    omega

/-! ### The latch -/

/-- The latch's checks in their order (R197), with the shortest frame's length as a number. -/
theorem classify_eq_checks (s : State) :
    classify s =
      if s.work.cnt.toNat < 8 then errorResult .tooShort
      else if s.work.hdr[0] ≠ Config.sync0 ∨ s.work.hdr[1] ≠ Config.sync1 then
        errorResult .badSync
      else if s.work.cnt.toNat < 8 + (workLen s.work).toNat then errorResult .truncated
      else okResult s := rfl

/-- Settles O38: the beat is stored, and the latch's checks are taken in their order. -/
theorem lastBeatLatchesTheResult : Obligations.LastBeatLatchesTheResult := by
  intro b s hp
  refine ⟨storeByte b s, latch (storeByte b s), exec_rxBeat_accepted b hp,
    exec_rxBeatLast_accepted b hp, ?_⟩
  generalize storeByte b s = u
  intro n len sync status error
  have hlen : (workLen u.work).toNat = len := workLen_toNat u.work
  have hsync : ¬ sync ↔ u.work.hdr[0] ≠ Config.sync0 ∨ u.work.hdr[1] ≠ Config.sync1 :=
    not_and_or
  refine ⟨rfl, ?_⟩
  simp only [latch_res, classify_eq_checks, hlen, ← hsync]
  refine ⟨fun hshort => ?_, fun hlong hbad => ?_, fun hlong hgood htrunc => ?_,
    fun hlong hgood hwhole => ?_⟩
  · rw [if_pos hshort]; rfl
  · rw [if_neg (Nat.not_lt.2 hlong), if_pos hbad]; rfl
  · rw [if_neg (Nat.not_lt.2 hlong), if_neg (not_not.2 hgood), if_pos htrunc]; rfl
  · rw [if_neg (Nat.not_lt.2 hlong), if_neg (not_not.2 hgood), if_neg (Nat.not_lt.2 hwhole)]
    refine ⟨rfl, rfl, rfl, rfl, hlen, rfl, rfl, rfl, decide_eq_true_iff, rfl, fun hst => ?_,
      fun hst => ?_⟩
    · have : u.work.hdr[2] = Config.cmdStatus ∧ Config.statusMinLen ≤ (workLen u.work).toNat :=
        hlen ▸ hst
      simp [okResult, this]
    · have : ¬ (u.work.hdr[2] = Config.cmdStatus ∧ Config.statusMinLen ≤ (workLen u.work).toNat) :=
        hlen ▸ hst
      simp [okResult, this]

/-! ### A message among the host's words (R207) -/

/-- The two states agree in DEC, `buf` and everything still to be presented. -/
structure SameDec (s t : State) : Prop where
  work : t.work = s.work
  res : t.res = s.res
  buf : t.buf = s.buf
  hostIn : t.hostIn = s.hostIn
  rxIn : t.rxIn = s.rxIn
  sched : t.sched = s.sched

theorem exec_operation_next (hi : i.format = .op) (s : State) : ∃ t, exec i s = .next t := by
  cases i <;> simp only [Instr.format, reduceCtorEq] at hi
  case crcUpd b => exact ⟨_, exec_crcUpd b s⟩
  case decPay => rcases exec_decPay_cases s with ⟨-, -, -, he⟩ | ⟨-, he⟩ <;> exact ⟨_, he⟩
  case decAck => rcases exec_decAck_cases s with ⟨-, he⟩ | ⟨-, he⟩ <;> exact ⟨_, he⟩
  all_goals exact ⟨_, rfl⟩

/-- While no result is pending an operation of the host leaves DEC alone: DEC.PAY and DEC.ACK are
OpError, and no other operation is DEC's. -/
theorem exec_operation_sameDec (hi : i.format = .op) (hp : s.res.pending = false)
    (h : exec i s = .next t) : SameDec s t := by
  rcases instr_groups i with hg | hg | hg | rfl | rfl | ⟨b, rfl⟩ | hg
  · rw [exec_crc_frame hg h]; exact ⟨rfl, rfl, rfl, rfl, rfl, rfl⟩
  · rw [exec_read_frame hg h]; exact ⟨rfl, rfl, rfl, rfl, rfl, rfl⟩
  · rw [exec_enc_frame hg h]; exact ⟨rfl, rfl, rfl, rfl, rfl, rfl⟩
  · rw [decPayPopsTheNextByte.2 s |>.2 (.inl hp)] at h
    cases h; exact ⟨rfl, rfl, rfl, rfl, rfl, rfl⟩
  · rw [decAckReleasesTheResult.2 s |>.2 hp] at h
    cases h; exact ⟨rfl, rfl, rfl, rfl, rfl, rfl⟩
  · exact absurd hi (by unfold beatInstr; split <;> simp [Instr.format])
  · rw [hg] at hi; cases hi

/-- The bytes `got` of a message are stored, its last one has not come, and the host presents operation
words only. -/
structure Receiving (got : List Byte) (s : State) : Prop where
  stored : Stored got s
  notPending : s.res.pending = false
  operations : ∀ w ∈ s.hostIn, ∃ v, w = .op v

theorem Stored.congr (hs : Stored raw s) (hwork : t.work = s.work) (hbuf : t.buf = s.buf) :
    Stored raw t := by
  obtain ⟨hcnt, hhdr, hcrc, hrxcrc, hendm, hbytes⟩ := hs
  rw [← hwork] at hcnt hcrc hrxcrc hendm
  exact ⟨hcnt, by simpa only [hwork] using hhdr, hcrc, hrxcrc, hendm,
    by simpa only [hbuf] using hbytes⟩

theorem Receiving.congr (hr : Receiving got s) (h : SameDec s t) : Receiving got t where
  stored := hr.stored.congr h.work h.buf
  notPending := by rw [h.res]; exact hr.notPending
  operations := by rw [h.hostIn]; exact hr.operations

/-- A host turn, whatever word it takes, leaves the reception as it is. -/
theorem Receiving.host_turn (hr : Receiving got s) (hq : s.sched = .host :: turns) :
    ∃ t, step s = .next t ∧ Receiving got t ∧ t.rxIn = s.rxIn ∧ t.sched = turns := by
  match hh : s.hostIn with
  | [] =>
    exact ⟨_, step_host_idle hq hh, ⟨hr.stored.congr rfl rfl, hr.notPending, hr.operations⟩, rfl, rfl⟩
  | w :: ws =>
    have hops := hr.operations
    rw [hh] at hops
    obtain ⟨v, rfl⟩ := hops w List.mem_cons_self
    have hu : Receiving got { s with sched := turns, hostIn := ws } :=
      ⟨hr.stored.congr rfl rfl, hr.notPending, fun w hw => hops w (List.mem_cons_of_mem _ hw)⟩
    cases hd : decodeOp v with
    | error why =>
      exact ⟨_, step_host_illegal hq hh hd, hu.congr ⟨rfl, rfl, rfl, rfl, rfl, rfl⟩, rfl, rfl⟩
    | ok i =>
      obtain ⟨t, ht⟩ := exec_operation_next (decodeOp_format hd) _
      have hsame := exec_operation_sameDec (decodeOp_format hd) hu.notPending ht
      exact ⟨t, (step_host_instr hq hh hd).trans ht, hu.congr hsame, hsame.rxIn, hsame.sched⟩

/-- A transport turn stores the message's next byte. -/
theorem Receiving.transport_turn {b : Byte} {ws : List BeatWord} (hr : Receiving got s)
    (hq : s.sched = .transport :: turns) (hrx : s.rxIn = Beat.word ⟨b, false⟩ :: ws) :
    ∃ t, step s = .next t ∧ Receiving (got ++ [b]) t ∧ t.rxIn = ws ∧ t.sched = turns := by
  let u : State := { s with sched := turns, rxIn := ws }
  have hstored : Stored got u := hr.stored.congr rfl rfl
  have hbeat : takeBeat ⟨b, false⟩ u = storeByte b u := takeBeat_accepted b hr.notPending
  refine ⟨storeByte b u, hbeat ▸ step_beat hq hrx, ⟨hstored.concat b, ?_, ?_⟩, ?_, ?_⟩ <;>
    rw [storeByte_frame]
  · exact hr.notPending
  · exact hr.operations

/-- The transport turn of the last beat stores its byte and latches. -/
theorem Receiving.last_turn {b : Byte} {ws : List BeatWord} (hr : Receiving got s)
    (hq : s.sched = .transport :: turns) (hrx : s.rxIn = Beat.word ⟨b, true⟩ :: ws) :
    ∃ u, step s = .next (latch u) ∧ Stored (got ++ [b]) u ∧ u.rxIn = ws ∧ u.sched = turns := by
  let u : State := { s with sched := turns, rxIn := ws }
  have hstored : Stored got u := hr.stored.congr rfl rfl
  have hbeat : takeBeat ⟨b, true⟩ u = latch (storeByte b u) := takeBeat_last b hr.notPending
  refine ⟨storeByte b u, hbeat ▸ step_beat hq hrx, hstored.concat b, ?_, ?_⟩ <;>
    rw [storeByte_frame]

/-- A run whose first step answers `t` goes on from there. -/
theorem run_succ {k : Nat} (h : step s = .next t) :
    Host.Core.run Sys2Proof.core (k + 1) s = Host.Core.run Sys2Proof.core k t := by
  have hstep : Sys2Proof.core.step s = .next t := h
  simp only [Host.Core.run, hstep]

/-- R207 in any interleaving: once each beat left of the message has had its turn, the latch finds all
of its bytes stored. -/
theorem Receiving.run_latches {bytes : List Byte} {b : Byte} {later : List BeatWord}
    (hr : Receiving got s) (hq : s.sched = turns ++ .transport :: rest)
    (hrx : s.rxIn = (beatsOf (bytes ++ [b])).map Beat.word ++ later)
    (hrst : Turn.rst ∉ turns) (hcount : turns.count .transport = bytes.length) :
    ∃ u, Host.Core.run Sys2Proof.core (turns.length + 1) s = .next (latch u) ∧
      Stored (got ++ (bytes ++ [b])) u ∧ u.rxIn = later ∧ u.sched = rest := by
  rw [beatsOf_append_singleton] at hrx
  induction turns generalizing got bytes s with
  | nil =>
    obtain rfl := List.eq_nil_of_length_eq_zero hcount.symm
    obtain ⟨u, hstep, hu⟩ := hr.last_turn hq hrx
    exact ⟨u, run_succ hstep, hu⟩
  | cons turn turns ih =>
    have hrst' : Turn.rst ∉ turns := fun h => hrst (List.mem_cons_of_mem _ h)
    cases turn with
    | rst => exact absurd List.mem_cons_self hrst
    | host =>
      obtain ⟨t, hstep, ht, htrx, htq⟩ := hr.host_turn hq
      rw [List.length_cons, run_succ hstep]
      exact ih ht htq (htrx.trans hrx) hrst' (by simpa using hcount)
    | transport =>
      match bytes with
      | [] => simp at hcount
      | c :: bytes =>
        obtain ⟨t, hstep, ht, htrx, htq⟩ := hr.transport_turn hq hrx
        rw [List.length_cons, run_succ hstep, List.cons_append, List.append_cons]
        exact ih ht htq htrx hrst' (by simpa using hcount)

/-- While an OK result's payload is in `buf`, as many DEC.PAY as it has bytes pop it (R200). -/
theorem execAll_decPay_resultOf {f : ParsedFrame} (hf : decodeMessage raw = .ok f)
    (hres : t.res = resultOf (.ok f))
    (hbuf : ∀ (k : Nat) (h : k < f.payload.length), memGet t.buf k = some f.payload[k]) :
    execAll (List.replicate f.payload.length .decPay) t = .next (popped f.payload t) := by
  obtain ⟨hframe, hlen⟩ := eq_parsedFrame hf
  have hpay : f.payload.length = f.payloadLength.toNat := by
    rw [hframe, parsedFrame, half_toNat, payloadSoFar_length, ← declaredLength]; omega
  have hrp : t.res.rp.toNat = 0 := by rw [hres]; rfl
  refine execAll_decPay_popped _ (by rw [hres]; rfl) (by rw [hres]; rfl) ?_ ?_
  · rw [hrp, hres, hpay, Nat.zero_add]; exact Nat.le_refl _
  · simpa only [hrp, Nat.zero_add] using hbuf

/-- Settles O41: the host's words pass the reception by, so the beats leave what they would leave alone,
and the latch classifies the stored bytes as `decode` does. -/
theorem messageDecodedUnderAnyInterleaving : Obligations.MessageDecodedUnderAnyInterleaving := by
  intro s raw ops later turns rest hne hp hw hrx hhost hq hrst hcount
  obtain ⟨bytes, b, rfl⟩ := (List.eq_nil_or_concat' raw).resolve_left hne
  have hr : Receiving [] s := ⟨stored_nil hw, hp, fun w hmem => by
    rw [hhost] at hmem
    obtain ⟨v, -, rfl⟩ := List.mem_map.1 hmem
    exact ⟨v, rfl⟩⟩
  obtain ⟨u, hrun, hall, hurx, huq⟩ := hr.run_latches hq hrx hrst (by simpa using hcount)
  rw [List.nil_append] at hall
  refine ⟨latch u, hrun, hall.classify_eq, rfl, hurx, huq, fun f hf => ?_⟩
  have hbuf : ∀ (k : Nat) (h : k < f.payload.length),
      memGet (latch u).buf k = some f.payload[k] := by
    obtain ⟨rfl, -⟩ := eq_parsedFrame hf
    exact hall.buf
  exact ⟨hbuf, _, execAll_decPay_resultOf hf (hf ▸ hall.classify_eq) hbuf, rfl⟩

end Sys2Proof.Machine
end

section
/-! Proofs of the family 44_rd.md: the operation RD (R230, R231) and the values of the register map as
numbers (10_state.md R29). -/

namespace Sys2Proof.Machine

variable {s : State} {n v : Byte}

/-! ### The values of the register map as numbers (10_state.md R29) -/

theorem lowByte_eq_ofNat (h : Half) : lowByte h = BitVec.ofNat 8 (h.toNat % 256) := by
  rw [← lowByte_toNat, BitVec.ofNat_toNat, BitVec.setWidth_eq]

theorem highByte_eq_ofNat (h : Half) : highByte h = BitVec.ofNat 8 (h.toNat / 256) := by
  rw [← highByte_toNat, BitVec.ofNat_toNat, BitVec.setWidth_eq]

theorem encStat_eq_ofNat (s : State) :
    encStat s = BitVec.ofNat 8 (if s.enc.busy then 1 else 0) := by
  unfold encStat
  cases s.enc.busy <;> rfl

theorem decFlags_eq_ofNat (s : State) :
    decFlags s = BitVec.ofNat 8 ((if s.res.crcvalid then 1 else 0) +
      2 * (if s.res.stvalid then 1 else 0) + 4 * (if s.res.paper then 1 else 0)) := by
  unfold decFlags
  cases s.res.crcvalid <;> cases s.res.stvalid <;> cases s.res.paper <;> rfl

/-! ### RD -/

theorem readReg_eq_none (hn : (0x09 ≤ n.toNat ∧ n.toNat ≤ 0x0F) ∨ 0x1E ≤ n.toNat) :
    readReg s n = none := by
  unfold readReg
  split
  case h_24 => rfl
  all_goals omega

theorem exec_rd_implemented (h : readReg s n = some v) :
    exec (.rd n) s = .next { s with rspOut := s.rspOut ++ [⟨false, v⟩] } := by
  have hresp : respondReg n s = respondOk v s := by rw [respondReg, h]
  exact congrArg Host.Outcome.next hresp

theorem exec_rd_unimplemented (h : readReg s n = none) :
    exec (.rd n) s = .next { s with rspOut := s.rspOut ++ [⟨true, 0x00⟩] } := by
  have hresp : respondReg n s = opError s := by rw [respondReg, h]
  exact congrArg Host.Outcome.next hresp

/-- Settles O22: the row of the word, the numbers outside the register map, and the map's 23 registers in
their order. -/
theorem rdAnswersTheRegister : Obligations.RdAnswersTheRegister := by
  refine ⟨decodeOp_rd, fun s =>
    ⟨fun _ hn => exec_rd_unimplemented (readReg_eq_none hn), rfl, ?_⟩⟩
  intro byte bit r hr
  apply exec_rd_implemented
  revert r
  simp only [List.forall_mem_cons]
  refine ⟨rfl, rfl, rfl,
    congrArg some (lowByte_eq_ofNat s.enc.len), congrArg some (highByte_eq_ofNat s.enc.len),
    congrArg some (lowByte_eq_ofNat s.enc.rem), congrArg some (highByte_eq_ofNat s.enc.rem),
    rfl, congrArg some (encStat_eq_ofNat s), congrArg some ?verdict, rfl, rfl,
    congrArg some (lowByte_eq_ofNat s.res.len), congrArg some (highByte_eq_ofNat s.res.len),
    rfl, rfl, rfl, congrArg some (decFlags_eq_ofNat s), rfl, rfl, rfl,
    congrArg some (lowByte_eq_ofNat s.res.rp), congrArg some (highByte_eq_ofNat s.res.rp),
    List.forall_mem_nil _⟩
  case verdict =>
    unfold decVerdict
    cases s.res.verdict <;> rfl

end Sys2Proof.Machine
end

section
/-! Proofs of the family 45_wire_commands.md: host bytes that are no frame (R240), the words of each
expansion (R241 to R250), and the frames that the expansions and PRINTBITMAP send (R240, R251). -/

namespace Sys2Proof.Machine

variable {s t : State} {i : Instr} {rest : List HostWord} {turns : List Turn}

/-! ### Host bytes and encodings -/

theorem step_host_unknown {bytes : List Byte} {ws : List HostWord} {why : DecodeReject}
    (hs : s.sched = .host :: turns) (hh : s.hostIn = .frame bytes :: ws)
    (hd : decodeFrame bytes = .error why) : step s = .refused (.notAWireCommand why) := by
  simp [step, fetch, hs, hh, fetchHost, decodeHost, hd]

/-- Settles O7: the host has no instruction for the bytes. -/
theorem unknownFrameIsRefusedByName : Obligations.UnknownFrameIsRefusedByName :=
  fun _ _ _ _ _ => step_host_unknown

/-- Settles O10: an instruction not read as itself shares its word (`RD 0x00`), or is a SENDRAW, and
the command read from its frame has the frame's parts. -/
theorem canonicalHasTheSameEncoding : Obligations.CanonicalHasTheSameEncoding := by
  intro i hi
  rcases canonical_cases i with hself | rfl | ⟨c, p, rfl⟩
  · rw [hself]; exact ⟨hi, rfl⟩
  · exact ⟨rfl, rfl⟩
  · have hlen : p.length ≤ 65535 := (wellFormed_iff_of_wireParts rfl).1 hi
    have hparts := wireParts_commandOf c 0x00 p
    exact ⟨(wellFormed_iff_of_wireParts hparts).2 hlen, encode_of_wireParts hparts⟩

/-! ### The words of an expansion -/

/-- The length of a payload goes into two words, the low byte first (30_encoding.md R104). -/
theorem openFrameWords_ofNat (c y : Byte) (n : Nat) :
    openFrameWords c y (BitVec.ofNat 16 n) =
      [opWord 0x30 c, opWord 0x31 y, opWord 0x32 (BitVec.ofNat 8 (n % 256)),
        opWord 0x33 (BitVec.ofNat 8 (n / 256)), opWord 0x34 0x00] := by
  rw [openFrameWords, ← half_mod_div n, lowByte_half, highByte_half]

/-- The words of `FRAME c, y, p` stand first in what the host presents. -/
theorem next_presentOps_frameWords (c y : Byte) {p : List Byte} (n : Nat) (hn : p.length = n)
    (s : State) :
    (Host.Outcome.next (presentOps (frameWords c y p) s) : Result) =
      .next { s with
        hostIn := ([opWord 0x30 c, opWord 0x31 y, opWord 0x32 (BitVec.ofNat 8 (n % 256)),
          opWord 0x33 (BitVec.ofNat 8 (n / 256)), opWord 0x34 0x00] ++
            p.map (opWord 0x35)).map HostWord.op ++ s.hostIn } := by
  rw [presentOps, frameWords, hn, openFrameWords_ofNat]

/-- Settles O30: each is `FRAME` with a payload of no, one or two bytes, and the two bytes of a
16-bit operand are its halves. -/
theorem wireCommandsExpandToTheirWords : Obligations.WireCommandsExpandToTheirWords := by
  intro v b s
  rw [← lowByte_eq_ofNat, ← highByte_eq_ofNat]
  exact ⟨next_presentOps_frameWords _ _ 2 rfl s, next_presentOps_frameWords _ _ 2 rfl s,
    next_presentOps_frameWords _ _ 2 rfl s, next_presentOps_frameWords _ _ 1 rfl s,
    next_presentOps_frameWords _ _ 1 rfl s, next_presentOps_frameWords _ _ 1 rfl s,
    next_presentOps_frameWords _ _ 0 rfl s, next_presentOps_frameWords _ _ 0 rfl s⟩

theorem exec_printRow_refused {row : List Byte} (h : 65535 < row.length) (s : State) :
    exec (.printRow row) s = .refused .payloadNotRepresentable :=
  if_neg (Nat.not_le.2 h)

theorem exec_sendRaw_refused {p : List Byte} (h : 65535 < p.length) (cmd : RawCode) (s : State) :
    exec (.sendRaw cmd p) s = .refused .payloadNotRepresentable :=
  if_neg (Nat.not_le.2 h)

/-- Settles O31: a payload that fits the length field is expanded, a longer one is refused. -/
theorem payloadCommandsExpandToTheirWords : Obligations.PayloadCommandsExpandToTheirWords := by
  intro c ty p s
  refine ⟨fun hp => ?_, fun hp => ⟨exec_printRow_refused hp s, exec_sendRaw_refused hp _ s⟩⟩
  rw [exec_printRow hp, exec_sendRaw hp, framerWords, openFrameWords_ofNat]
  exact ⟨rfl, next_presentOps_frameWords c ty p.length rfl s⟩

/-! ### Operation words presented one after another -/

/-- `s` with other words and turns to come. -/
abbrev withQueues (ws : List HostWord) (turns : List Turn) (s : State) : State :=
  { s with hostIn := ws, sched := turns }

theorem writeHeader_withQueues (ws : List HostWord) (turns : List Turn) (e : EncState) (s : State) :
    writeHeader e (withQueues ws turns s) = withQueues ws turns (writeHeader e s) := by
  simp only [writeHeader]; split_ifs <;> rfl

theorem startFrame_withQueues (ws : List HostWord) (turns : List Turn) (s : State) :
    startFrame (withQueues ws turns s) = withQueues ws turns (startFrame s) := by
  simp only [startFrame]; split_ifs <;> rfl

theorem putByte_withQueues (ws : List HostWord) (turns : List Turn) (v : Byte) (s : State) :
    putByte v (withQueues ws turns s) = withQueues ws turns (putByte v s) := by
  simp only [putByte]; split_ifs <;> rfl

/-- An ENC operation does the same whatever is still to come. -/
theorem exec_enc_withQueues (ws : List HostWord) (turns : List Turn) (hi : isEncOp i = true)
    (h : exec i s = .next t) : exec i (withQueues ws turns s) = .next (withQueues ws turns t) := by
  cases i <;> simp only [isEncOp, Bool.false_eq_true] at hi <;>
    obtain rfl := Host.Outcome.next.inj h
  case encStart => exact congrArg Host.Outcome.next (startFrame_withQueues ws turns s)
  case encPut b => exact congrArg Host.Outcome.next (putByte_withQueues ws turns b s)
  case encPutr b => exact congrArg Host.Outcome.next (putByte_withQueues ws turns (rev8 b) s)
  all_goals exact congrArg Host.Outcome.next (writeHeader_withQueues ws turns _ s)

/-- An ENC operation leaves what is still to come. -/
theorem exec_enc_keeps_queues (hi : isEncOp i = true)
    (h : exec i (withQueues rest turns s) = .next t) : withQueues rest turns t = t := by
  rw [exec_enc_frame hi h]

/-- The word `w` is the ENC operation `i`. -/
abbrev EncWord (w : OpWord) (i : Instr) : Prop := decodeOp w = .ok i ∧ isEncOp i = true

/-- Words of ENC operations, each given a host turn, are performed one after another. -/
theorem run_encWords {ws : List OpWord} {is : List Instr} (hw : List.Forall₂ EncWord ws is)
    (hh : s.hostIn = ws.map HostWord.op ++ rest)
    (hq : s.sched = List.replicate ws.length .host ++ turns)
    (hx : execAll is (withQueues rest turns s) = .next t) :
    Host.Core.run Sys2Proof.core ws.length s = .next t := by
  induction hw generalizing s with
  | nil =>
    obtain rfl : withQueues rest turns s = t := Host.Outcome.next.inj hx
    simp only [List.map_nil, List.nil_append, List.length_nil, List.replicate_zero] at hh hq
    rw [← hh, ← hq]; rfl
  | @cons w i ws is hwi _ ih =>
    obtain ⟨hd, hi⟩ := hwi
    obtain ⟨u, hu, hrest⟩ := execAll_cons_next.1 hx
    have hstep : step s = _ := (step_host_instr hq hh hd).trans
      (exec_enc_withQueues (ws.map HostWord.op ++ rest) (List.replicate ws.length .host ++ turns)
        hi hu)
    rw [List.length_cons, run_succ hstep]
    refine ih rfl rfl ?_
    rw [← hrest, ← exec_enc_keeps_queues hi hu]

/-! ### The words of one frame -/

/-- The words `ws` are `5 + L` ENC operations that send the frame of `c`, `y` and the payload `p`: from
an idle ENC, each given a host turn, they end as the operations of `FRAME c, y, p` (42_enc.md R176). -/
def SendsFrame (c y : Byte) (p : List Byte) (ws : List OpWord) : Prop :=
  ws.length = 5 + p.length ∧
  ∀ (s : State) (rest : List HostWord) (turns : List Turn), s.enc.busy = false →
    s.hostIn = ws.map HostWord.op ++ rest → s.sched = List.replicate ws.length .host ++ turns →
    Host.Core.run Sys2Proof.core ws.length s = .next (frameSent c y p (withQueues rest turns s))

theorem encWords_map {put : Byte} {op : Byte → Instr} (h : ∀ b, EncWord (opWord put b) (op b))
    (p : List Byte) : List.Forall₂ EncWord (p.map (opWord put)) (p.map op) :=
  List.forall₂_map_left_iff.2 (List.forall₂_map_right_iff.2 (List.forall₂_same.2 fun b _ => h b))

/-- The words that open a frame, followed by those of its payload bytes. -/
theorem encWords_open (c y : Byte) (n : Nat) {ws : List OpWord} {is : List Instr}
    (h : List.Forall₂ EncWord ws is) :
    List.Forall₂ EncWord (openFrameWords c y (BitVec.ofNat 16 n) ++ ws)
      ([.encCmd c, .encType y, .encLenl (BitVec.ofNat 8 (n % 256)),
        .encLenh (BitVec.ofNat 8 (n / 256)), .encStart] ++ is) := by
  rw [openFrameWords_ofNat]
  exact .cons ⟨decodeOp_encCmd _, rfl⟩ <| .cons ⟨decodeOp_encType _, rfl⟩ <|
    .cons ⟨decodeOp_encLenl _, rfl⟩ <| .cons ⟨decodeOp_encLenh _, rfl⟩ <|
    .cons ⟨decodeOp_encStart _, rfl⟩ h

theorem sendsFrame_frameWords (c y : Byte) {p : List Byte} (hp : p.length ≤ 65535) :
    SendsFrame c y p (frameWords c y p) := by
  have hputs := encWords_map (put := 0x35) (fun b => ⟨decodeOp_encPut b, rfl⟩) p
  have hwords : List.Forall₂ EncWord (frameWords c y p) (frameInstrs c y p) :=
    encWords_open c y p.length hputs
  refine ⟨?_, fun s rest turns hidle hh hq => ?_⟩
  · rw [frameWords, List.length_append, List.length_map]; rfl
  · exact run_encWords hwords hh hq (execAll_frameInstrs c y hp hidle)

/-- FRAMER sends the frame of the reversed bytes (45_wire_commands.md R243). -/
theorem sendsFrame_framerWords (c y : Byte) {row : List Byte} (hrow : row.length ≤ 65535) :
    SendsFrame c y (row.map rev8) (framerWords c y row) := by
  have hputs := encWords_map (put := 0x36) (fun b => ⟨decodeOp_encPutr b, rfl⟩) row
  have hwords : List.Forall₂ EncWord (framerWords c y row) (framerInstrs c y row) :=
    encWords_open c y row.length hputs
  refine ⟨?_, fun s rest turns hidle hh hq => ?_⟩
  · rw [framerWords, List.length_append, List.length_map, List.length_map]; rfl
  · refine run_encWords hwords hh hq ?_
    rw [execAll_framerInstrs]
    exact execAll_frameInstrs c y (by rwa [List.length_map]) hidle

/-! ### The wire commands -/

/-- A wire command presents words that send the frame of its parts (R240). -/
theorem exec_wire_presents {c y : Byte} {p : List Byte} (h : wireParts i = some (c, y, p))
    (hp : p.length ≤ 65535) :
    ∃ ws, (∀ s, exec i s = .next (presentOps ws s)) ∧ SendsFrame c y p ws := by
  cases i <;> cases h
  case printRow row =>
    rw [List.length_map] at hp
    exact ⟨_, exec_printRow hp, sendsFrame_framerWords _ _ hp⟩
  case sendRaw cmd => exact ⟨_, exec_sendRaw hp cmd, sendsFrame_frameWords _ _ hp⟩
  all_goals exact ⟨_, fun _ => rfl, sendsFrame_frameWords _ _ hp⟩

/-- Only an instruction of format FRAME is encoded as a frame, that of its parts. -/
theorem wireParts_of_encode {bytes : List Byte} (h : encode i = .host (.frame bytes)) :
    ∃ c y p, wireParts i = some (c, y, p) ∧ bytes = encodeFrame c y p := by
  rcases instr_encodings i with ⟨w, hw⟩ | ⟨b, rfl⟩ | ⟨c, y, p, hparts⟩
  · rw [encode_of_opEncoding hw] at h; cases h
  · rw [encode_beatInstr] at h; cases h
  · rw [encode_of_wireParts hparts] at h
    cases h
    exact ⟨c, y, p, hparts, rfl⟩

/-- Only SENDRAW has a type byte of its own (log 6). -/
theorem typ_of_wireParts {c y : Byte} {p : List Byte} (h : wireParts i = some (c, y, p)) :
    y = 0x00 ∨ ∃ cmd payload, i = .sendRaw cmd payload := by
  cases i <;> cases h
  case sendRaw cmd => exact .inr ⟨cmd, p, rfl⟩
  all_goals exact .inl rfl

/-- The operations of FRAME are all answered without error, the five that open it and one for each
payload byte (R176). -/
theorem frameSent_answers (c y : Byte) (p : List Byte) (s : State) :
    ∃ answers, (frameSent c y p s).rspOut = s.rspOut ++ answers ∧ answers.length = 5 + p.length ∧
      ∀ r ∈ answers, r.err = false := by
  refine ⟨List.replicate 5 ⟨false, 0x00⟩ ++ p.map (fun b => ⟨false, b⟩), ?_, ?_, ?_⟩
  · rw [frameSent, List.append_assoc]
  · rw [List.length_append, List.length_replicate, List.length_map]
  · simp [or_imp, forall_and]

/-- Settles O32: the frame is read as a command with the frame's parts, and that command presents words
that send the frame of these parts. -/
theorem wireCommandSendsItsFrame : Obligations.WireCommandSendsItsFrame := by
  intro i bytes s rest turns hi henc hidle hh hq
  obtain ⟨c, y, p, hparts, rfl⟩ := wireParts_of_encode henc
  have hp := (wellFormed_iff_of_wireParts hparts).1 hi
  obtain ⟨ws, hexec, hlen, hsend⟩ := exec_wire_presents (wireParts_commandOf c y p) hp
  have hturns : (encodeFrame c y p).length - 2 = ws.length + 1 := by
    rw [encodeFrame_length, hlen]; omega
  rw [hturns] at hq ⊢
  let u := withQueues rest (List.replicate ws.length .host ++ turns) s
  have hstep : step s = .next (presentOps ws u) :=
    (step_host_instr hq hh (decodeFrame_encodeFrame c y hp)).trans (hexec u)
  have hrun := hsend (presentOps ws u) rest turns hidle rfl rfl
  obtain ⟨answers, hrsp, hcount, hok⟩ :=
    frameSent_answers c y p (withQueues rest turns (presentOps ws u))
  refine ⟨_, answers, (run_succ hstep).trans hrun, rfl, hrsp, ?_, hok, rfl, rfl, rfl, rfl,
    typ_of_wireParts hparts, rfl, rfl, rfl, rfl⟩
  rw [encodeFrame_length, hcount]; omega

/-! ### PRINTBITMAP -/

/-- A run of `m + n` steps is one of `m` steps and one of `n`. -/
theorem run_add {m : Nat} (n : Nat) (h : Host.Core.run Sys2Proof.core m s = .next t) :
    Host.Core.run Sys2Proof.core (m + n) s = Host.Core.run Sys2Proof.core n t := by
  induction m generalizing s with
  | zero => cases h; rw [Nat.zero_add]
  | succ m ih =>
    rw [Nat.add_right_comm]
    cases hu : step s with
    | next u => rw [run_succ hu] at h ⊢; exact ih h
    | fault r => cases r
    | refused r =>
      have hcore : Sys2Proof.core.step s = .refused r := hu
      simp only [Host.Core.run, hcore] at h
      cases h

theorem printBitmapWords_cons (row : List Byte) (rows : List (List Byte)) :
    printBitmapWords (row :: rows) =
      framerWords Config.cmdPrintRow Config.typeDefault row ++ printBitmapWords rows := by
  rw [printBitmapWords, List.flatMap_cons, List.append_assoc, printBitmapWords]

/-- Settles O33: induction over the rows; each row's words send its frame, and the last words those of
`feed(32)`. -/
theorem printBitmapSendsRowsThenFeed : Obligations.PrintBitmapSendsRowsThenFeed := by
  intro rows
  induction rows with
  | nil =>
    intro s rest turns _ hidle hh hq
    obtain ⟨-, hsend⟩ := sendsFrame_frameWords Config.cmdFeed Config.typeDefault
      (p := le16 Config.bitmapFeed) (by decide)
    refine ⟨_, hsend s rest turns hidle hh hq, ?_, rfl, rfl, rfl⟩
    rw [List.map_nil, List.flatten_nil, List.append_nil]; rfl
  | cons row rows ih =>
    intro s rest turns hrows hidle hh hq
    obtain ⟨hrow, hrows⟩ := List.forall_mem_cons.1 hrows
    obtain ⟨-, hsend⟩ := sendsFrame_framerWords Config.cmdPrintRow Config.typeDefault hrow
    rw [printBitmapWords_cons, List.map_append, List.append_assoc] at hh
    rw [printBitmapWords_cons, List.length_append, List.replicate_add, List.append_assoc] at hq
    have hfirst := hsend s _ _ hidle hh hq
    obtain ⟨t, hrun, htx, hend⟩ :=
      ih (frameSent _ _ _ (withQueues _ _ s)) rest turns hrows rfl rfl rfl
    refine ⟨t, ?_, ?_, hend⟩
    · rw [printBitmapWords_cons, List.length_append, run_add _ hfirst, hrun]
    · rw [htx]
      simp [frameSent]

end Sys2Proof.Machine
end

section
/-! Proofs of the family 60_exceptions.md: the causes of OpError (R271), and the level outputs against the
verdict (R275). -/

namespace Sys2Proof.Machine

variable {s t : State} {i : Instr} {n : Byte} {cause : Prop}

/-! ### The causes of OpError (60_exceptions.md R271) -/

/-- From `s` to `t` one response was given: OpError, with nothing else changed, when `cause` holds, and
a response without error when it does not. -/
def Answers (cause : Prop) (s t : State) : Prop :=
  (cause ∧ t = opError s) ∨ (¬ cause ∧ ∃ d, t.rspOut = s.rspOut ++ [⟨false, d⟩])

theorem answers_opError (h : cause) : Answers cause s (opError s) := .inl ⟨h, rfl⟩

theorem answers_ok {d : Byte} (h : ¬ cause) (ht : t.rspOut = s.rspOut ++ [⟨false, d⟩]) :
    Answers cause s t := .inr ⟨h, d, ht⟩

/-- What an answer says of its one response. -/
theorem Answers.response (h : Answers cause s t) :
    ∃ r : Rsp, t.rspOut = s.rspOut ++ [r] ∧ (r.err = true ↔ cause) ∧
      (r.err = true → r.data = 0x00 ∧ t = { s with rspOut := s.rspOut ++ [⟨true, 0x00⟩] }) := by
  rcases h with ⟨hc, rfl⟩ | ⟨hc, d, ht⟩
  · exact ⟨⟨true, 0x00⟩, rfl, iff_of_true rfl hc, fun _ => ⟨rfl, rfl⟩⟩
  · exact ⟨⟨false, d⟩, ht, iff_of_false nofun hc, nofun⟩

theorem readReg_eq_none_iff :
    readReg s n = none ↔ (0x09 ≤ n.toNat ∧ n.toNat ≤ 0x0F) ∨ 0x1E ≤ n.toNat := by
  refine ⟨fun h => ?_, readReg_eq_none⟩
  unfold readReg at h
  split at h
  case h_24 =>
    simp only [imp_false] at *
    omega
  all_goals cases h

theorem respondReg_answers (n : Byte) (s : State) :
    Answers (readReg s n = none) s (respondReg n s) := by
  rcases respondReg_is_response n s with ⟨v, hv, h⟩ | ⟨hv, h⟩ <;> rw [h]
  · exact answers_ok (by simp [hv]) (respondOk_rspOut v s)
  · exact answers_opError hv

theorem writeHeader_answers (e : EncState) (s : State) :
    Answers (s.enc.busy = true) s (writeHeader e s) := by
  cases h : s.enc.busy
  · rw [writeHeader_idle e h]; exact answers_ok nofun rfl
  · rw [writeHeader_busy e h]; exact answers_opError rfl

theorem startFrame_answers (s : State) : Answers (s.enc.busy = true) s (startFrame s) := by
  cases h : s.enc.busy
  · by_cases hl : s.enc.len = 0
    · rw [startFrame_empty h hl]; exact answers_ok nofun rfl
    · rw [startFrame_open h hl]; exact answers_ok nofun rfl
  · rw [startFrame_busy h]; exact answers_opError rfl

theorem putByte_answers (v : Byte) (s : State) :
    Answers (s.enc.busy = false) s (putByte v s) := by
  cases h : s.enc.busy
  · rw [putByte_idle v h]; exact answers_opError rfl
  · by_cases hr : s.enc.rem = 1
    · rw [putByte_last v h hr]; exact answers_ok nofun rfl
    · rw [putByte_more v h hr]; exact answers_ok nofun rfl

theorem exec_decPay_answers (s : State) :
    ∃ t, exec .decPay s = .next t ∧ Answers (OpErrorCause .decPay s) s t := by
  rcases exec_decPay_cases s with ⟨hp, hv, hlt, he⟩ | ⟨hn, he⟩ <;> refine ⟨_, he, ?_⟩
  · refine answers_ok (fun hc => ?_) rfl
    rcases hc with hc | hc | hc
    · simp [hp] at hc
    · exact hc hv
    · exact hc hlt
  · refine answers_opError ?_
    rw [not_and_or, not_and_or, Bool.not_eq_true] at hn
    exact hn

theorem exec_decAck_answers (s : State) :
    ∃ t, exec .decAck s = .next t ∧ Answers (OpErrorCause .decAck s) s t := by
  rcases exec_decAck_cases s with ⟨hp, he⟩ | ⟨hp, he⟩ <;> refine ⟨_, he, ?_⟩
  · exact answers_ok (fun hc : s.res.pending = false => by simp [hp] at hc) rfl
  · exact answers_opError hp

/-- Every operation is one of the shared operations, or cannot fail. -/
theorem exec_answers (hi : IsOperation i) (s : State) :
    ∃ t, exec i s = .next t ∧ Answers (OpErrorCause i s) s t := by
  cases i <;> simp only [IsOperation, Instr.format, reduceCtorEq] at hi
  case rd n =>
    have h := respondReg_answers n s
    rw [readReg_eq_none_iff] at h
    exact ⟨_, rfl, h⟩
  case crcClr => exact ⟨_, rfl, answers_ok id rfl⟩
  case crcUpd b => exact ⟨_, exec_crcUpd b s, answers_ok id (respondOk_rspOut _ _)⟩
  case brev b => exact ⟨_, rfl, answers_ok id rfl⟩
  case crcRd => exact ⟨_, rfl, answers_ok id rfl⟩
  case encStart => exact ⟨_, rfl, startFrame_answers s⟩
  case encPut b => exact ⟨_, exec_encPut b s, putByte_answers b s⟩
  case encPutr b => exact ⟨_, exec_encPutr b s, putByte_answers (rev8 b) s⟩
  case decPay => exact exec_decPay_answers s
  case decAck => exact exec_decAck_answers s
  all_goals exact ⟨_, rfl, writeHeader_answers _ s⟩

/-- Settles O46: every operation answers, and its one response is an error exactly for its cause. -/
theorem opErrorExactlyForItsCauses : Obligations.OpErrorExactlyForItsCauses := by
  intro i s hi
  obtain ⟨t, he, ha⟩ := exec_answers hi s
  obtain ⟨r, hr⟩ := ha.response
  exact ⟨t, r, he, hr⟩

/-! ### The level outputs and the verdict (60_exceptions.md R275) -/

theorem decVerdict_eq_zero_iff (s : State) : decVerdict s = 0 ↔ s.res.verdict = .none := by
  unfold decVerdict
  cases s.res.verdict <;> decide

/-- In a legal state the verdict is NONE exactly while no result is pending (10_state.md R40). -/
theorem pending_iff_verdict (h : ResInv s) : s.res.pending = true ↔ s.res.verdict ≠ .none := by
  obtain ⟨hreset, hverdict, -⟩ := h
  refine ⟨hverdict, fun hv => ?_⟩
  by_contra hp
  rw [hreset (Bool.eq_false_of_not_eq_true hp)] at hv
  exact hv rfl

/-- Settles O45: register 0x10 reads the verdict, which a legal state has exactly with a pending
result. -/
theorem irqAgreesWithTheVerdict : Obligations.IrqAgreesWithTheVerdict := by
  rintro s ⟨-, hres, -⟩
  have hreg : readReg s 0x10 = some (decVerdict s) := rfl
  refine ⟨?_, rfl⟩
  calc decIrq s = true
    _ ↔ s.res.verdict ≠ .none := pending_iff_verdict hres
    _ ↔ decVerdict s ≠ 0 := (decVerdict_eq_zero_iff s).not.symm
    _ ↔ ∃ v, readReg s 0x10 = some v ∧ v ≠ 0 :=
      ⟨fun hne => ⟨_, hreg, hne⟩, fun ⟨_, hv, hne⟩ => Option.some.inj (hreg.symm.trans hv) ▸ hne⟩

end Sys2Proof.Machine
end

section
/-! Proofs of the family 70_reset_and_hazards.md: the reset edge (R300), and the completion of every
well-formed instruction (R320). -/

namespace Sys2Proof.Machine

variable {i : Instr}

/-- Settles O2: the turn is the reset of the block, whose fields are the reset values or are kept. -/
theorem resetTurnResetsTheBlock : Obligations.ResetTurnResetsTheBlock :=
  fun _ _ hs => ⟨_, step_reset hs, rfl, rfl, rfl, rfl, rfl, rfl, rfl, rfl, rfl⟩

/-- Only an operation has an operation word. -/
theorem isOperation_of_opEncoding {w : OpWord} (h : opEncoding i = some w) : IsOperation i := by
  cases i <;> cases h <;> rfl

/-- Settles O49: an operation always answers, a beat is taken or waits, and a wire command presents its
words, since a well-formed one has a representable payload (42_enc.md R172). -/
theorem everyWellFormedInstructionCompletes : Obligations.EveryWellFormedInstructionCompletes := by
  intro i hwf s
  rcases instr_encodings i with ⟨w, hw⟩ | ⟨b, rfl⟩ | ⟨c, y, p, hparts⟩
  · exact exec_operation_next (isOperation_of_opEncoding hw) s
  · exact ⟨takeBeat b s, exec_beatInstr b s⟩
  · have hlen : p.length ≤ 65535 := (wellFormed_iff_of_wireParts hparts).1 hwf
    obtain ⟨ws, hpresents, -⟩ := exec_wire_presents hparts hlen
    exact ⟨presentOps ws s, hpresents s⟩

end Sys2Proof.Machine
end
